-- ==== Sys2Proof/Word.lean ====
section
/-! DEFINITION. The words of the trexxxx CORE: plain names for the bit-vector widths the spec fixes
(00_scope.md R7, R8). The machine's own arithmetic stands in Machine/Operands.lean and Machine/Ops.lean. -/

namespace Sys2Proof

/-- One byte of an image file (20_memory.md R44). -/
abbrev Byte := BitVec 8

/-- A 32-bit word: an instruction, an image word, a register's value (R7 `ILEN`, `WORD`, `XLEN`). -/
abbrev Word := BitVec 32

/-- A register-index field, 5 bits, 0..31 (10_state.md R24). -/
abbrev RegIdx := BitVec 5

/-- A program-counter value, 64 bits (R7 `PC_W`, 92 D3). -/
abbrev Addr := BitVec 64

end Sys2Proof
end

