-- ==== Sys2Proof/Config.lean ====
section
/-! DEFINITION. What the spec fixes for the machine (00_scope.md R7) and the model's one free value. -/

namespace Sys2Proof

/-- `BASE`: the virtual address of image word 0 (R7, R40). -/
def Config.base : Nat := 0x80000

/-- `NREG`: the number of general registers (R7, R21, 92 D1). -/
def Config.nreg : Nat := 32

/-- DESIGN CHOICE (log entry 2), safe. A FREE VALUE: what decides the program counter after the
instruction at the old program counter given, where `pc + 4` has no 64-bit form. Nothing in Lean can
evaluate it; `Machine.nextPc` says how it is read. -/
opaque Config.pcPastTop : Addr → Addr

end Sys2Proof
end

