-- ==== Sys2Proof/Machine/Operands.lean ====
section
/-! DEFINITION. The operand forms and the arithmetic of the machine: the one immediate that reaches
an address (30_encoding.md R62), the MOV-alias test (R65), the 32-bit sum (42_add_immediate.md R132)
and the advance of the program counter (10_state.md R26). The CORE computes no flags (R28), so the
model has no file of flag computations. -/

namespace Sys2Proof.Machine

/-- `is_mov_alias` of an `AddImmediate` (R65). -/
def isMovAlias (shift : BitVec 1) (imm12 : BitVec 12) (rn rd : RegIdx) : Bool :=
  imm12 == 0#12 && shift == 0#1 && (rn == 31#5 || rd == 31#5)

/-- `offset = sext_19(imm19) * 4`, a signed byte offset (R62). -/
def literalOffset (imm19 : BitVec 19) : Int := imm19.toInt * 4

/-- The address an `ldr` at `pc` reads: an integer sum with no wrap, of the pre-increment program
counter (R120, 00_scope.md R9). -/
def literalTarget (pc : Addr) (imm19 : BitVec 19) : Int := (pc.toNat : Int) + literalOffset imm19

/-- `a +32 b = (a + b) mod 2^32` (R9, R132). -/
def add32 (a b : Word) : Word := a + b

/-- The program counter after a completed step: `pc + 4` (R26). DESIGN CHOICE (log entry 2), safe:
where `pc + 4` has no 64-bit form the result is a free 4-aligned address below BASE, so that the next
fetch fails as R27 and 92 D3 say. -/
def nextPc (pc : Addr) : Addr :=
  if pc.toNat + 4 < 2 ^ 64 then pc + 4#64
  else BitVec.ofNat 64 (4 * ((Config.pcPastTop pc).toNat % (Config.base / 4)))

end Sys2Proof.Machine
end

