-- ==== Sys2Proof/Syntax.lean ====
section
/-! DEFINITION. The instructions: one constructor per row of `spec/opcode_table.json`
(30_encoding.md R61, R63, R66), and the decoded record of R70. Every bit of an instruction's word is
held by a field or fixed by its constructor, the bits that decode ignores among them, so that the
word can be written back (log entry 8). -/

namespace Sys2Proof

/-- An instruction. -/
inductive Instr where
  /-- Row `mov`: format AI with the MOV-alias flag (R63, R65, R130); `imm12` and `shift` are 0. -/
  | mov (sf sBit : BitVec 1) (rn rd : RegIdx)
  /-- Row `add`: format AI without the flag (R63, R131). -/
  | add (sf sBit shift : BitVec 1) (imm12 : BitVec 12) (rn rd : RegIdx)
  /-- Row `ldr`: format LL (R61, R120). -/
  | ldr (opc : BitVec 2) (v : BitVec 1) (imm19 : BitVec 19) (rt : RegIdx)
  /-- Row `unknown`: every other word (R67, R104). -/
  | unknown (word : Word)
deriving DecidableEq, Repr

/-- The closed set of variants (R66, R68, R105). -/
inductive Variant where
  | unknown
  | loadLiteral
  | addImmediate
deriving DecidableEq, Repr

/-- The decoded record of R70, less its two display strings (Machine/Display.lean). -/
inductive Decoded where
  | unknown (word : Word)
  | loadLiteral (word : Word) (offset : Int) (rt : RegIdx)
  | addImmediate (word : Word) (shift : BitVec 1) (imm12 : BitVec 12) (rn rd : RegIdx)
      (isMovAlias : Bool)
deriving DecidableEq, Repr

/-- Why bytes hold no instruction. -/
inductive DecodeError where
  /-- Fewer than the four bytes of one instruction (R60). -/
  | truncated
deriving DecidableEq, Repr

end Sys2Proof
end

