-- ==== Sys2Proof/WellFormed.lean ====
section
/-! DEFINITION. Which terms of `Instr` stand for a word: the conditions of the opcode table's rows,
written with the table's own masks and matches (30_encoding.md R61, R63, R65, R66). -/

namespace Sys2Proof

/-- `w` has the mask and match of the table's AI rows (R66 (1)). -/
def matchesAI (w : Word) : Bool := w &&& 0x5F800000#32 == 0x11000000#32

/-- `w` has the mask and match of the table's LL row (R66 (2)). -/
def matchesLL (w : Word) : Bool := w &&& 0x3B000000#32 == 0x18000000#32

/-- The well-formed instructions: `mov` has a register field of 31, `add` lacks the alias condition
(R65), `unknown` holds a word neither of the other rows matches (R67). -/
def Instr.wf : Instr → Bool
  | .mov _ _ rn rd => rn == 31#5 || rd == 31#5
  | .add _ _ shift imm12 rn rd => !(imm12 == 0#12 && shift == 0#1 && (rn == 31#5 || rd == 31#5))
  | .ldr _ _ _ _ => true
  | .unknown w => !matchesAI w && !matchesLL w

end Sys2Proof
end

