-- ==== Sys2Proof/Decode.lean ====
section
/-! DEFINITION. The decoder, total on words (30_encoding.md R66, R68) and rejecting short bytes by
name, and after it the encoder, written from the same formats (R61, R63). -/

namespace Sys2Proof

/-- The word of four bytes, the first the least significant: little-endian (20_memory.md R44). -/
def wordOfBytes (b0 b1 b2 b3 : Byte) : Word := b3 ++ b2 ++ b1 ++ b0

/-- The four bytes of a word in the order the image file stores them (R44). -/
def bytesOfWord (w : Word) : List Byte :=
  [w.extractLsb' 0 8, w.extractLsb' 8 8, w.extractLsb' 16 8, w.extractLsb' 24 8]

/-- Decode test (1), field by field: `w[28:26] = 100`, `w[25:23] = 010`, `w[30] = 0` (R66; the class
bits as 90_conflicts.md C1 resolves them, log entry 7). -/
def isAddImmediate (w : Word) : Bool :=
  w.extractLsb' 26 3 == 0b100#3 && w.extractLsb' 23 3 == 0b010#3 && w.extractLsb' 30 1 == 0#1

/-- Decode test (2), field by field: `w[27] = 1`, `w[25] = 0`, `w[29:28] = 01`, `w[24] = 0` (R66). -/
def isLoadLiteral (w : Word) : Bool :=
  w.extractLsb' 27 1 == 1#1 && w.extractLsb' 25 1 == 0#1 && w.extractLsb' 28 2 == 0b01#2 &&
    w.extractLsb' 24 1 == 0#1

/-- The fields of an AI word (R63), as the row `mov` or the row `add` by the alias test (R65). -/
def decodeAI (w : Word) : Instr :=
  if Machine.isMovAlias (w.extractLsb' 22 1) (w.extractLsb' 10 12) (w.extractLsb' 5 5)
      (w.extractLsb' 0 5) then
    .mov (w.extractLsb' 31 1) (w.extractLsb' 29 1) (w.extractLsb' 5 5) (w.extractLsb' 0 5)
  else
    .add (w.extractLsb' 31 1) (w.extractLsb' 29 1) (w.extractLsb' 22 1) (w.extractLsb' 10 12)
      (w.extractLsb' 5 5) (w.extractLsb' 0 5)

/-- The fields of an LL word (R61). -/
def decodeLL (w : Word) : Instr :=
  .ldr (w.extractLsb' 30 2) (w.extractLsb' 26 1) (w.extractLsb' 5 19) (w.extractLsb' 0 5)

/-- `decode(w)` (R66): pure and total, the first match wins, `unknown` is the catch-all (R67, R68). -/
def decode (w : Word) : Instr :=
  if isAddImmediate w then decodeAI w
  else if isLoadLiteral w then decodeLL w
  else .unknown w

/-- The instruction at the head of a byte sequence and the bytes after it: always four bytes (R60),
in image order (R44). -/
def decodeBytes : List Byte → Except DecodeError (Instr × List Byte)
  | b0 :: b1 :: b2 :: b3 :: rest => .ok (decode (wordOfBytes b0 b1 b2 b3), rest)
  | _ => .error .truncated

/-- The instruction's word (R61, R63): the encoder. It is also the record's `word` attribute (R70;
log entry 8). -/
def encode : Instr → Word
  | .mov sf sBit rn rd => sf ++ 0b0#1 ++ sBit ++ 0b100#3 ++ 0b010#3 ++ 0b0#1 ++ 0#12 ++ rn ++ rd
  | .add sf sBit shift imm12 rn rd =>
    sf ++ 0b0#1 ++ sBit ++ 0b100#3 ++ 0b010#3 ++ shift ++ imm12 ++ rn ++ rd
  | .ldr opc v imm19 rt => opc ++ 0b01#2 ++ 0b1#1 ++ v ++ 0b0#1 ++ 0b0#1 ++ imm19 ++ rt
  | .unknown w => w

/-- The variant an instruction belongs to (R66, R73). -/
def variant : Instr → Variant
  | .mov _ _ _ _ => .addImmediate
  | .add _ _ _ _ _ _ => .addImmediate
  | .ldr _ _ _ _ => .loadLiteral
  | .unknown _ => .unknown

/-- The decoded record of an instruction (R70). -/
def record : Instr → Decoded
  | .mov sf sBit rn rd =>
    .addImmediate (encode (.mov sf sBit rn rd)) 0#1 0#12 rn rd (Machine.isMovAlias 0#1 0#12 rn rd)
  | .add sf sBit shift imm12 rn rd =>
    .addImmediate (encode (.add sf sBit shift imm12 rn rd)) shift imm12 rn rd
      (Machine.isMovAlias shift imm12 rn rd)
  | .ldr opc v imm19 rt =>
    .loadLiteral (encode (.ldr opc v imm19 rt)) (Machine.literalOffset imm19) rt
  | .unknown w => .unknown w

/-- The register-index fields of an instruction (R24, R71). -/
def indices : Instr → List RegIdx
  | .mov _ _ rn rd => [rn, rd]
  | .add _ _ _ _ rn rd => [rn, rd]
  | .ldr _ _ _ rt => [rt]
  | .unknown _ => []

/-- What the decoder reads from an instruction whose low `nbits` bits are those of `w`, laid out in
memory order. -/
def decodeTableWord (nbits w : Nat) : Option Instr :=
  match decodeBytes (bytesOfWord (BitVec.ofNat 32 (w % 2 ^ nbits))) with
  | .ok (i, _) => some i
  | .error _ => none

end Sys2Proof
end

