-- ==== Sys2Proof/Machine/State.lean ====
section
/-! DEFINITION. The state of the CORE (10_state.md R20, "Nothing else is state"), the fatal
conditions (60_exceptions.md R151), and the machine right after reset (R37). -/

namespace Sys2Proof.Machine

/-- The Memory Image as (address, byte) cells (20_memory.md R40). An unlisted address is outside the
image and has no value (R41; log entry 4). -/
abbrev Memory := List Host.Cell

/-- The canonical form: addresses strictly rising. What an unlisted address reads as is no value, so
no listed byte can equal it. -/
def Memory.wf : Memory → Bool
  | [] => true
  | [_] => true
  | (a, _) :: (b, y) :: m => decide (a < b) && Memory.wf ((b, y) :: m)

/-- The fatal conditions (R151), in the order of their codes. -/
inductive Fatal where
  /-- Code 1, raised by `load` only: no machine is created (R152). -/
  | imageLoadFailure
  /-- Code 2, raised by the fetch of a step (R153). -/
  | outOfBoundsFetch
  /-- Code 3, raised by `ldr` (R154). -/
  | outOfBoundsAccess
  /-- Code 4, raised by `add` (R155). -/
  | unimplementedSemantics
  /-- Code 5, raised only where `NREG < 32`, so never by this machine (R156; log entry 9). -/
  | registerIndexOutOfRange
deriving DecidableEq, Repr

/-- The fault record (R158): `name` is `Fatal.name code`. `addr` is an integer: a target may lie
below 0 (log entry 11). -/
structure FaultRecord where
  code : Fatal
  pc : Addr
  word : Option Word
  addr : Option Int
  index : Option Nat
deriving DecidableEq, Repr

/-- The run status (R32). -/
inductive Status where
  | idle
  | faulted (record : FaultRecord)
deriving DecidableEq, Repr

/-- What `raise Fatal(reason, info)` carries out of an instruction (00_scope.md R10): the condition
and the part of the record that the raiser knows. -/
structure Raise where
  code : Fatal
  addr : Option Int
  index : Option Nat
deriving DecidableEq, Repr

/-- The state of the CORE (R20). -/
structure State where
  /-- `pc`: the address of the instruction to execute (R25). -/
  pc : Addr
  /-- `x[0..31]`: the general registers, none hardwired (R21, R22). -/
  regs : Vector Word 32
  /-- `scratch[0..3]` (R30). -/
  scratch : Vector Word 4
  /-- `notify_w`: the register the last completed step wrote (R31). -/
  notifyW : Option RegIdx
  /-- `notify_r`: the register the last completed step read (R31). -/
  notifyR : Option RegIdx
  /-- `status` (R32). -/
  status : Status
  /-- `icache[0..L-1]`: the decoded image (R33). -/
  icache : List Instr
  /-- `mem[0..L-1]`: the image, as bytes (R34). -/
  mem : Memory
deriving DecidableEq, Repr

/-- The machine right after reset, with the empty image: nothing has been loaded (R37, R180, 92 D17;
log entry 3). -/
def State.reset : State where
  pc := BitVec.ofNat 64 Config.base
  regs := Vector.replicate 32 0#32
  scratch := Vector.replicate 4 0#32
  notifyW := none
  notifyR := none
  status := .idle
  icache := []
  mem := []

/-- What stops the model with no next state. No step does: taking a fatal condition in a step is a
next state, as R158 describes it (log entry 1). -/
inductive Fault where
  /-- `ImageLoadFailure` (code 1): raised by `load` only, when the file cannot be opened or read or
  its length is no multiple of 4; no machine is created (R55, R152). Safe: the spec has none either. -/
  | imageLoadFailure
deriving DecidableEq, Repr

/-- What the model turns away. -/
inductive Refusal where
  /-- Raised by an arm of `exec` whose instruction has no meaning yet. No arm does. Safe. -/
  | notModelled (mnemonic : String)
  /-- Raised by `load` only, for an image with `BASE + 4*L > 2^64`, which 00_scope.md R7 excludes as a
  launch input (log entry 6). Safe: no machine is built. -/
  | imageBeyondAddressSpace
deriving DecidableEq, Repr

end Sys2Proof.Machine
end

