-- ==== Sys2Proof/Machine/Ops.lean ====
section
/-! DEFINITION. The named operations over the state: registers, the notify record, the image's reads,
the fetch, the frame of a step, taking a fatal condition and returning from one. -/

namespace Sys2Proof.Machine

/-! ### Registers and the notify record -/

/-- `x[i]` (10_state.md R21, R24): every 5-bit index names a register. -/
def readReg (s : State) (i : RegIdx) : Word := s.regs[i.toNat]'(i.isLt)

/-- `x[i] <- v`: the whole 32-bit register, `x[31]` as any other (R21, R22). -/
def writeReg (s : State) (i : RegIdx) (v : Word) : State :=
  { s with regs := s.regs.set i.toNat v i.isLt }

/-- `notify_w <- i` (R31). -/
def notifyWrite (s : State) (i : RegIdx) : State := { s with notifyW := some i }

/-- `notify_r <- i` (R31). -/
def notifyRead (s : State) (i : RegIdx) : State := { s with notifyR := some i }

/-! ### The Memory Image -/

/-- The byte the image holds at an address, none where the address is not listed. -/
def Memory.readByte : Memory → Nat → Option Byte
  | [], _ => none
  | (b, v) :: m, a => if b = a then some v else Memory.readByte m a

/-- The little-endian word at an address (20_memory.md R44), none where a byte of it is not listed. -/
def Memory.readWord (m : Memory) (a : Nat) : Option Word :=
  match m.readByte a, m.readByte (a + 1), m.readByte (a + 2), m.readByte (a + 3) with
  | some b0, some b1, some b2, some b3 => some (wordOfBytes b0 b1 b2 b3)
  | _, _, _, _ => none

/-- `L`: the number of words of the image (00_scope.md R7; log entry 4). -/
def imageLength (s : State) : Nat := s.mem.length / 4

/-- An address, an integer, is valid: aligned and inside the image (R41). -/
def validAddr (s : State) (a : Int) : Bool :=
  decide (a % 4 = 0) && decide ((Config.base : Int) ≤ a) &&
    decide (a < (Config.base : Int) + 4 * (imageLength s : Int))

/-- `Fatal(OutOfBoundsAccess, {addr})` (R42, R154). -/
def accessRaise (a : Int) : Raise := { code := .outOfBoundsAccess, addr := some a, index := none }

/-- `MemRead(A, 4)`, the only data-read primitive (R42). In a memory that is no image (log entry 4) a
word with a missing byte is out of bounds too. -/
def memRead (s : State) (a : Int) : Except Raise Word :=
  if validAddr s a then
    match s.mem.readWord a.toNat with
    | some w => .ok w
    | none => .error (accessRaise a)
  else .error (accessRaise a)

/-! ### Fetch -/

/-- `Fatal(OutOfBoundsFetch, {pc})` (R47, R153); the record's `pc` is the machine's. -/
def fetchRaise : Raise := { code := .outOfBoundsFetch, addr := none, index := none }

/-- `pc` is aligned and not below BASE: the first two checks of R47. -/
def fetchAligned (pc : Addr) : Bool :=
  decide (pc.toNat % 4 = 0) && decide (Config.base ≤ pc.toNat)

/-- The index of the Instruction Cache that `pc` names (R47). -/
def fetchIndex (pc : Addr) : Nat := (pc.toNat - Config.base) / 4

/-- `Fetch(pc)`: the Instruction Cache's entry, never the image (R47, 92 D19). An index past the
cache's end is `pc >= BASE + 4*L` (log entry 5). -/
def fetch (s : State) : Except Raise Instr :=
  if fetchAligned s.pc then
    match s.icache[fetchIndex s.pc]? with
    | some i => .ok i
    | none => .error fetchRaise
  else .error fetchRaise

/-! ### The register-index check -/

/-- The first register field that the register file does not have (30_encoding.md R71, R156). -/
def badIndex (i : Instr) : Option RegIdx := (indices i).find? fun k => decide (Config.nreg ≤ k.toNat)

/-- `Fatal(RegisterIndexOutOfRange, {index})` (R156). -/
def indexRaise (k : RegIdx) : Raise :=
  { code := .registerIndexOutOfRange, addr := none, index := some k.toNat }

/-! ### The frame of a step, and taking a fatal condition -/

/-- What a step clears on its private copy before the fetch: scratch and the notify record
(40_execution_engine.md R102). -/
def beginStep (s : State) : State :=
  { s with scratch := Vector.replicate 4 0#32, notifyW := none, notifyR := none }

/-- `pc <- pc + 4` (R102, 10_state.md R26). -/
def advancePc (s : State) : State := { s with pc := nextPc s.pc }

/-- TAKING A FATAL CONDITION (60_exceptions.md R158): on the state from before the step, nothing
changes but `status`, which becomes `Faulted` with the record; `word` is none when the fetch failed. -/
def takeFatal (s : State) (word : Option Word) (r : Raise) : State :=
  { s with
    status := .faulted
      { code := r.code, pc := s.pc, word := word, addr := r.addr, index := r.index } }

/-- THE RETURN: `reset()` is all that leaves `Faulted` (R159). Every mutable component takes its
reset value; the image and the Instruction Cache stay (70_reset_and_hazards.md R180). -/
def resetMachine (s : State) : State :=
  { s with
    pc := BitVec.ofNat 64 Config.base
    regs := Vector.replicate 32 0#32
    scratch := Vector.replicate 4 0#32
    notifyW := none
    notifyR := none
    status := .idle }

/-- The end of a step over the instruction with the given word, begun in `s` (R102): the private copy
is committed with the program counter advanced, or thrown away and the fatal condition taken. -/
def finishStep (s : State) (word : Word) : Except Raise State → Host.Outcome State Fault Refusal
  | .ok t => .next (advancePc t)
  | .error r => .next (takeFatal s (some word) r)

/-! ### Names and numbers of the fatal conditions -/

/-- The numeric code (R151, 92 D9). -/
def Fatal.number : Fatal → Nat
  | .imageLoadFailure => 1
  | .outOfBoundsFetch => 2
  | .outOfBoundsAccess => 3
  | .unimplementedSemantics => 4
  | .registerIndexOutOfRange => 5

/-- The name (R151), which the fault record shows (R158). -/
def Fatal.name : Fatal → String
  | .imageLoadFailure => "ImageLoadFailure"
  | .outOfBoundsFetch => "OutOfBoundsFetch"
  | .outOfBoundsAccess => "OutOfBoundsAccess"
  | .unimplementedSemantics => "UnimplementedSemantics"
  | .registerIndexOutOfRange => "RegisterIndexOutOfRange"

end Sys2Proof.Machine
end

