-- ==== Sys2Proof/Machine/AddImmediate.lean ====
section
/-! DEFINITION. The AddImmediate family (42_add_immediate.md): `mov` and `add`. -/

namespace Sys2Proof.Machine

/-- `execute` of the MOV alias on the private copy (R130): accumulate `x[rn]` into `x[rd]`, then
notify. `rd = rn` doubles the register. -/
def movBody (rn rd : RegIdx) (s : State) : State :=
  notifyRead (notifyWrite (writeReg s rd (add32 (readReg s rd) (readReg s rn))) rd) rn

/-- `mov` (R130). `sf` and `S` change nothing (R133). -/
def execMov (sf sBit : BitVec 1) (rn rd : RegIdx) (s : State) : Host.Outcome State Fault Refusal :=
  finishStep s (encode (.mov sf sBit rn rd)) (.ok (movBody rn rd (beginStep s)))

/-- `Fatal(UnimplementedSemantics)` (R131, R155). -/
def addRaise : Raise := { code := .unimplementedSemantics, addr := none, index := none }

/-- `add` (R131): no operand is read, the fatal condition is always taken. `sf` and `S` change nothing
but the recorded word (R133). -/
def execAdd (sf sBit shift : BitVec 1) (imm12 : BitVec 12) (rn rd : RegIdx) (s : State) :
    Host.Outcome State Fault Refusal :=
  finishStep s (encode (.add sf sBit shift imm12 rn rd)) (.error addRaise)

end Sys2Proof.Machine
end

