-- ==== Sys2Proof/Machine/LoadLiteral.lean ====
section
/-! DEFINITION. The LoadLiteral family (41_load_literal.md): `ldr`. -/

namespace Sys2Proof.Machine

/-- `execute` of `LoadLiteral` on the private copy, whose `pc` is still this instruction's (R120): the
whole image word goes to `x[rt]`, `x[31]` too (R122). -/
def ldrBody (imm19 : BitVec 19) (rt : RegIdx) (s : State) : Except Raise State :=
  match memRead s (literalTarget s.pc imm19) with
  | .ok v => .ok (notifyWrite (writeReg s rt v) rt)
  | .error r => .error r

/-- `ldr` (R120). `opc` and `V` change nothing but the recorded word (R121). -/
def execLdr (opc : BitVec 2) (v : BitVec 1) (imm19 : BitVec 19) (rt : RegIdx) (s : State) :
    Host.Outcome State Fault Refusal :=
  finishStep s (encode (.ldr opc v imm19 rt)) (ldrBody imm19 rt (beginStep s))

end Sys2Proof.Machine
end

