-- ==== Sys2Proof/Machine/Unknown.lean ====
section
/-! DEFINITION. The placeholder (40_execution_engine.md R104): `unknown`. -/

namespace Sys2Proof.Machine

/-- `unknown` (R104): nothing of its own, so the step only clears scratch and notify and advances the
program counter. Every A64 branch, barrier, hint, store and system word is one (R67, R107, R108). -/
def execUnknown (word : Word) (s : State) : Host.Outcome State Fault Refusal :=
  finishStep s (encode (.unknown word)) (.ok (beginStep s))

end Sys2Proof.Machine
end

