-- ==== Sys2Proof/Machine/Dispatch.lean ====
section
/-! DEFINITION. The dispatch: one exhaustive match (40_execution_engine.md R105). -/

namespace Sys2Proof.Machine

def exec (i : Instr) (s : State) : Host.Outcome State Fault Refusal :=
  match i with
  | .mov sf sBit rn rd => Sys2Proof.Machine.execMov sf sBit rn rd s
  | .add sf sBit shift imm12 rn rd => Sys2Proof.Machine.execAdd sf sBit shift imm12 rn rd s
  | .ldr opc v imm19 rt => Sys2Proof.Machine.execLdr opc v imm19 rt s
  | .unknown word => Sys2Proof.Machine.execUnknown word s

end Sys2Proof.Machine
end

