-- ==== Sys2Proof/Machine/Cycle.lean ====
section
/-! DEFINITION. The step cycle (40_execution_engine.md R102), which Machine/Step.lean only calls. -/

namespace Sys2Proof.Machine

/-- One call of `step()` (R102): in `Faulted` nothing changes (R103); else the fetch, then the
register-index check, then the instruction, in the order of R160. A failed check takes its fatal
condition. -/
def stepCycle (s : State) : Host.Outcome State Fault Refusal :=
  match s.status with
  | .faulted _ => .next s
  | .idle =>
    match fetch s with
    | .error r => .next (takeFatal s none r)
    | .ok i =>
      match badIndex i with
      | some k => .next (takeFatal s (some (encode i)) (indexRaise k))
      | none => exec i s

end Sys2Proof.Machine
end

