-- ==== Sys2Proof/Machine/Load.lean ====
section
/-! DEFINITION. The image loader (20_memory.md R55) and the Instruction Cache builder
(30_encoding.md R69). -/

namespace Sys2Proof.Machine

/-- Bytes laid out at rising addresses from the one given (R40). -/
def Memory.ofBytes : Nat → List Byte → Memory
  | _, [] => []
  | a, b :: bs => (a, b) :: Memory.ofBytes (a + 1) bs

/-- The words of an image in address order (R40, R44); bytes past the last whole word give none. -/
def imageWords : Memory → List Word
  | (_, b0) :: (_, b1) :: (_, b2) :: (_, b3) :: m => wordOfBytes b0 b1 b2 b3 :: imageWords m
  | _ => []

/-- `build(mem)` (30_encoding.md R69): every word decoded, in address order. -/
def build (m : Memory) : List Instr := (imageWords m).map decode

/-- `load(IMAGE)` (R55): none stands for a file that cannot be opened or read, which is reported
before the length is looked at (60_exceptions.md R152, R160; log entry 6). After a load the state is
the reset state over the loaded image (70_reset_and_hazards.md R182). -/
def load (image : Option (List Byte)) : Host.Outcome State Fault Refusal :=
  match image with
  | none => .fault .imageLoadFailure
  | some bytes =>
    if bytes.length % 4 = 0 then
      if Config.base + bytes.length ≤ 2 ^ 64 then
        .next
          { State.reset with
            mem := Memory.ofBytes Config.base bytes
            icache := build (Memory.ofBytes Config.base bytes) }
      else .refused .imageBeyondAddressSpace
    else .fault .imageLoadFailure

/-! ### A word placed where the next step fetches (log entry 3) -/

/-- The list with `x` at position `n`, lengthened by `fill` where it is too short. -/
def placeAt {α : Type} (fill x : α) : Nat → List α → List α
  | 0, [] => [x]
  | 0, _ :: l => x :: l
  | n + 1, [] => fill :: placeAt fill x n []
  | n + 1, a :: l => a :: placeAt fill x n l

/-- The address itself where an image can hold it, else BASE. -/
def fetchablePc (pc : Addr) : Addr :=
  if fetchAligned pc then pc else BitVec.ofNat 64 Config.base

/-- The machine had an image been loaded that holds `w` at the program counter: the word in the image
and its decoding in the Instruction Cache, the run status `Idle`, nothing else changed. An image that
is too short is lengthened with zero words; a program counter that no image can hold moves to BASE. -/
def loadFetchWord (s : State) (w : Word) : State :=
  { s with
    pc := fetchablePc s.pc
    status := .idle
    icache := placeAt (decode 0#32) (decode w) (fetchIndex (fetchablePc s.pc)) s.icache
    mem := Memory.ofBytes Config.base
      ((placeAt 0#32 w (fetchIndex (fetchablePc s.pc)) (imageWords s.mem)).flatMap bytesOfWord) }

end Sys2Proof.Machine
end

