-- ==== Sys2Proof/Machine/Step.lean ====
section
/-! DEFINITION. The step of the machine and the placing of an instruction where it fetches. -/

namespace Sys2Proof.Machine

/-- One call of `step()` (40_execution_engine.md R102). -/
def step (s : State) : Host.Outcome State Fault Refusal := stepCycle s

/-- `s` with the instruction of the low `nbits` bits of `w` where the next step fetches it (log entry
3). -/
def State.withFetchWord (s : State) (nbits w : Nat) : State :=
  loadFetchWord s (BitVec.ofNat 32 (w % 2 ^ nbits))

end Sys2Proof.Machine
end

