-- ==== Sys2Proof/Machine/Display.lean ====
section
/-! DEFINITION. The display strings of an instruction (30_encoding.md R73, R74). No execution rule
reads them. -/

namespace Sys2Proof.Machine

/-- The mnemonic (R73). -/
def mnemonic : Instr → String
  | .mov _ _ _ _ => "mov"
  | .add _ _ _ _ _ _ => "add"
  | .ldr _ _ _ _ => "ldr"
  | .unknown _ => "unknown"

/-- A number in decimal digits. -/
def decimal (n : Nat) : String := String.ofList (Nat.toDigits 10 n)

/-- `hex(v)`: lowercase, no leading zeros (R74). -/
def hex (n : Nat) : String := "0x" ++ String.ofList (Nat.toDigits 16 n)

/-- `shex(v)` (R74). -/
def shex (v : Int) : String := if v < 0 then "-" ++ hex v.natAbs else hex v.natAbs

/-- `A(n)`: register 31 is shown as `sp` (R74). -/
def addName (n : RegIdx) : String := if n = 31#5 then "sp" else "x" ++ decimal n.toNat

/-- `T(n)`: register 31 is shown as `xzr`, though it is written as any other (R74, R122). -/
def loadName (n : RegIdx) : String := if n = 31#5 then "xzr" else "x" ++ decimal n.toNat

/-- The operand string (R74). -/
def arg : Instr → String
  | .mov _ _ rn rd => addName rd ++ ", " ++ addName rn
  | .add _ _ shift imm12 rn rd =>
    addName rd ++ ", " ++ addName rn ++ ", #" ++ hex imm12.toNat ++
      (if shift = 1#1 then ", lsl #12" else "")
  | .ldr _ _ imm19 rt => loadName rt ++ ", #" ++ shex (literalOffset imm19)
  | .unknown _ => ""

end Sys2Proof.Machine
end

