-- ==== Sys2Proof/Machine/Control.lean ====
section
/-! DEFINITION. What the control surface reads (10_state.md R35, 40_execution_engine.md R100). -/

namespace Sys2Proof.Machine

/-- The result of a `step` (R100): `Ok` or `Fatal(record)`. -/
inductive StepResult where
  | ok
  | fatal (record : FaultRecord)
deriving DecidableEq, Repr

/-- The result that a `step` which left the machine in the given state reported: a fatal condition
just taken, or the recorded one again, shows in `status` (R102, R103). -/
def stepResult (after : State) : StepResult :=
  match after.status with
  | .idle => .ok
  | .faulted r => .fatal r

/-- The machine-state snapshot (R35, R100). -/
structure Snapshot where
  pc : Addr
  regs : Vector Word 32
  scratch : Vector Word 4
  notifyW : Option RegIdx
  notifyR : Option RegIdx
  status : Status
deriving DecidableEq, Repr

/-- `snapshot` (R100): read-only. -/
def snapshot (s : State) : Snapshot where
  pc := s.pc
  regs := s.regs
  scratch := s.scratch
  notifyW := s.notifyW
  notifyR := s.notifyR
  status := s.status

/-- One line of the listing (R100). -/
structure ListingLine where
  address : Nat
  word : Word
  mnemonic : String
  arg : String
deriving DecidableEq, Repr

/-- The lines of the instructions from the given address on. -/
def listingFrom : Nat → List Instr → List ListingLine
  | _, [] => []
  | a, i :: is =>
    { address := a, word := encode i, mnemonic := mnemonic i, arg := arg i } ::
      listingFrom (a + 4) is

/-- `listing` (R100): the whole Instruction Cache, entry `i` at address `BASE + 4*i` (R35). -/
def listing (s : State) : List ListingLine := listingFrom Config.base s.icache

end Sys2Proof.Machine
end

