-- ==== Sys2Proof/Safety.lean ====
section
/-! DEFINITION. What claims are stated in: the invariant of the machine's states, the states a host
can reach, and the runs that have not ended. -/

namespace Sys2Proof.Machine

/-- The memory is an image: its bytes stand at BASE, BASE+1, … with no gap, in whole words
(20_memory.md R40). -/
def Memory.isImage (m : Memory) : Bool :=
  decide (m.map Prod.fst = List.range' Config.base m.length) && decide (m.length % 4 = 0)

/-- The invariant of every state at a step boundary. -/
structure State.Inv (s : State) : Prop where
  /-- The memory is an image (R40). -/
  image : s.mem.isImage = true
  /-- The image ends below the top of the address space: R7's bound, less the one image that fills
  the space to its last word (log entry 2). -/
  fits : Config.base + 4 * imageLength s < 2 ^ 64
  /-- The Instruction Cache is the image decoded (10_state.md R33, 30_encoding.md R69). -/
  cache : s.icache = build s.mem
  /-- Scratch shows 0 (R30). -/
  scratchZero : s.scratch = Vector.replicate 4 0#32
  /-- `pc` is 4-byte aligned (R25, R27). -/
  pcAligned : s.pc.toNat % 4 = 0
  /-- `BASE <= pc` (R27). -/
  pcLow : Config.base ≤ s.pc.toNat
  /-- `pc <= BASE + 4*L` (R27). -/
  pcHigh : s.pc.toNat ≤ Config.base + 4 * imageLength s
  /-- A fault record holds the address the fatal condition met (60_exceptions.md R158). -/
  recordPc : ∀ r, s.status = .faulted r → r.pc = s.pc

/-- The states a host reaches from a loaded image with the verbs `reset` and `step`, in any order
(40_execution_engine.md R101; log entry 13). -/
inductive Reachable (image : List Byte) : State → Prop where
  | loaded {s : State} : load (some image) = .next s → Reachable image s
  | reset {s : State} : Reachable image s → Reachable image (resetMachine s)
  | step {s t : State} : Reachable image s → step s = .next t → Reachable image t

/-- A step from the state completes: no fatal condition (R102). -/
def Completes (s t : State) : Prop := step s = .next t ∧ t.status = .idle

/-- The run has ended in a fatal condition (R109, 92 D23). -/
def State.ended (s : State) : Bool :=
  match s.status with
  | .idle => false
  | .faulted _ => true

end Sys2Proof.Machine
end

