-- ==== Sys2Proof/Certificates/Slice0/Obligations.lean ====
section
/-! DEFINITION. The statements for the provers. -/

open Sys2Proof Sys2Proof.Machine

/-! ### Encoding and decoding -/

/-- Decode of encode is the instruction, for every well-formed instruction with every operand (R61,
R63, R65, R66). -/
def Obligations.DecodeOfEncode : Prop :=
  ∀ i : Instr, i.wf = true → decode (encode i) = i

/-- `decode` gives every word exactly one variant, whose record's `word` is the word it was decoded from,
and it never fails (R68). That the encoder gives the word back and that the term is well formed are
clauses of the model's own: the spec has no encoder, and the model writes `word` back from the fields
(log entry 8). -/
def Obligations.EncodeOfDecode : Prop :=
  ∀ w : Word, encode (decode w) = w ∧ (decode w).wf = true ∧
    (record (decode w) = .unknown w ∨ (∃ offset rt, record (decode w) = .loadLiteral w offset rt) ∨
      ∃ shift imm12 rn rd flag, record (decode w) = .addImmediate w shift imm12 rn rd flag) ∧
    decodeBytes (bytesOfWord w) = .ok (decode w, [])

/-- R66 as masks, and every field of the record by its bit positions (R61, R63), the offset as R62
gives it, the alias flag as R65 gives it; the two tests exclude each other. -/
def Obligations.DecodeFollowsMasksAndFields : Prop :=
  ∀ w : Word,
    ¬ (w &&& 0x5F800000#32 = 0x11000000#32 ∧ w &&& 0x3B000000#32 = 0x18000000#32) ∧
    (w &&& 0x5F800000#32 = 0x11000000#32 →
      ∃ shift imm12 rn rd, record (decode w) =
        .addImmediate w shift imm12 rn rd
          (decide (imm12.toNat = 0 ∧ shift.toNat = 0 ∧ (rn.toNat = 31 ∨ rd.toNat = 31))) ∧
        shift.toNat = w.toNat / 2 ^ 22 % 2 ∧ imm12.toNat = w.toNat / 2 ^ 10 % 2 ^ 12 ∧
        rn.toNat = w.toNat / 2 ^ 5 % 2 ^ 5 ∧ rd.toNat = w.toNat % 2 ^ 5) ∧
    (w &&& 0x3B000000#32 = 0x18000000#32 →
      ∃ rt, record (decode w) =
        .loadLiteral w
          (4 * (if w.toNat / 2 ^ 5 % 2 ^ 19 < 2 ^ 18 then ((w.toNat / 2 ^ 5 % 2 ^ 19 : Nat) : Int)
            else ((w.toNat / 2 ^ 5 % 2 ^ 19 : Nat) : Int) - 2 ^ 19)) rt ∧
        rt.toNat = w.toNat % 2 ^ 5) ∧
    (w &&& 0x5F800000#32 ≠ 0x11000000#32 → w &&& 0x3B000000#32 ≠ 0x18000000#32 →
      decode w = .unknown w)

/-- R62: the offset of every LL word is the signed value of its bits 23:5 times 4, a multiple of 4 in
the stated range, relative to the address of the instruction; with the rule's three examples. -/
def Obligations.LiteralOffsetSignedAndInRange : Prop :=
  (∀ w : Word, w &&& 0x3B000000#32 = 0x18000000#32 →
    ∃ opc v imm19 rt, decode w = .ldr opc v imm19 rt ∧ imm19.toNat = w.toNat / 2 ^ 5 % 2 ^ 19) ∧
  (∀ imm19 : BitVec 19,
    literalOffset imm19 =
      4 * (if imm19.toNat < 2 ^ 18 then (imm19.toNat : Int) else (imm19.toNat : Int) - 2 ^ 19) ∧
    literalOffset imm19 % 4 = 0 ∧
    -0x100000 ≤ literalOffset imm19 ∧ literalOffset imm19 ≤ 0x0FFFFC ∧
    ∀ pc : Addr, literalTarget pc imm19 = (pc.toNat : Int) + literalOffset imm19) ∧
  literalOffset 2#19 = 8 ∧ literalOffset 0x7FFFF#19 = -4 ∧ literalOffset 0x40000#19 = -0x100000

/-- How many of the `2^32` words each variant covers, and how many of the `AddImmediate` words are
`mov` words (R76). -/
def Obligations.WordsPerVariant : Prop :=
  ((Finset.range (2 ^ 32)).filter fun n =>
    variant (decode (BitVec.ofNat 32 n)) = .addImmediate).card = 2 ^ 25 ∧
  ((Finset.range (2 ^ 32)).filter fun n =>
    variant (decode (BitVec.ofNat 32 n)) = .loadLiteral).card = 2 ^ 27 ∧
  ((Finset.range (2 ^ 32)).filter fun n =>
    variant (decode (BitVec.ofNat 32 n)) = .unknown).card = 2 ^ 32 - 2 ^ 25 - 2 ^ 27 ∧
  ((Finset.range (2 ^ 32)).filter fun n =>
    mnemonic (decode (BitVec.ofNat 32 n)) = "mov").card = 252

/-- A few of the spec's decode vectors, the words written out field by field (95_test_vectors.md
V-D1, V-D9, V-D11, V-D15, V-D17, V-D19, V-D24). -/
def Obligations.DecodeOfWrittenOutWords : Prop :=
  decode 0b01011000000000000000000001000001#32 = .ldr 0b01#2 0#1 2#19 1#5 ∧
  decode 0b01011000111111111111111111100101#32 = .ldr 0b01#2 0#1 0x7FFFF#19 5#5 ∧
  decode 0b10010001000000000000001111100010#32 = .mov 1#1 0#1 31#5 2#5 ∧
  decode 0b10110001000000000000001111100010#32 = .mov 1#1 1#1 31#5 2#5 ∧
  decode 0b10010001010000000000001111100010#32 = .add 1#1 0#1 1#1 0#12 31#5 2#5 ∧
  decode 0b11010001000000000000001111100010#32 =
    .unknown 0b11010001000000000000001111100010#32 ∧
  decode 0b11010110010111110000001111000000#32 =
    .unknown 0b11010110010111110000001111000000#32

/-- The mnemonic of every word, by the two masks and the alias condition on its bits (R73; `unknown` is
92 D15, the spec's own decision). -/
def Obligations.MnemonicOfEveryWord : Prop :=
  ∀ w : Word, mnemonic (decode w) =
    if w &&& 0x5F800000#32 = 0x11000000#32 then
      if w.toNat / 2 ^ 10 % 2 ^ 12 = 0 ∧ w.toNat / 2 ^ 22 % 2 = 0 ∧
          (w.toNat / 2 ^ 5 % 2 ^ 5 = 31 ∨ w.toNat % 2 ^ 5 = 31) then "mov" else "add"
    else if w &&& 0x3B000000#32 = 0x18000000#32 then "ldr" else "unknown"

/-! ### What each instruction does, and what it leaves unchanged -/

/-- `mov` completes in every state, for every form (R130): the sum modulo 2^32 into `x[rd]`, both
notifications, scratch cleared, and nothing else changed. -/
def Obligations.MovAccumulatesAndNotifies : Prop :=
  ∀ (sf sBit : BitVec 1) (rn rd : RegIdx) (s : State),
    ∃ t, exec (.mov sf sBit rn rd) s = .next t ∧
      (readReg t rd).toNat = ((readReg s rd).toNat + (readReg s rn).toNat) % 2 ^ 32 ∧
      (∀ j : RegIdx, j ≠ rd → readReg t j = readReg s j) ∧
      t.notifyW = some rd ∧ t.notifyR = some rn ∧
      (∀ k : Fin 4, t.scratch[k] = 0#32) ∧
      (s.pc.toNat + 4 < 2 ^ 64 → t.pc.toNat = s.pc.toNat + 4) ∧
      t.status = s.status ∧ t.icache = s.icache ∧
      (∀ a : Nat, t.mem.readByte a = s.mem.readByte a)

/-- `unknown` completes in every state, for every word (R104): no register changes, no notification,
scratch cleared, and nothing else changed. -/
def Obligations.UnknownOnlyAdvances : Prop :=
  ∀ (w : Word) (s : State),
    ∃ t, exec (.unknown w) s = .next t ∧
      (∀ j : RegIdx, readReg t j = readReg s j) ∧
      t.notifyW = none ∧ t.notifyR = none ∧
      (∀ k : Fin 4, t.scratch[k] = 0#32) ∧
      (s.pc.toNat + 4 < 2 ^ 64 → t.pc.toNat = s.pc.toNat + 4) ∧
      t.status = s.status ∧ t.icache = s.icache ∧
      (∀ a : Nat, t.mem.readByte a = s.mem.readByte a)

/-- A word that is neither an AI nor an LL word executes as a no-op wherever a run meets it (R67, R104,
R107, R108): in every `Idle` state with the invariant whose image holds such a word at `pc`, `exec` of its
`unknown` completes, and that is the step; `pc` moves by 4 and no register, no byte of memory and no
entry of the Instruction Cache changes. -/
def Obligations.UnmatchedWordsStepAsNoOps : Prop :=
  ∀ (s : State) (w : Word), s.Inv → s.status = .idle →
    s.mem.readWord s.pc.toNat = some w →
    w &&& 0x5F800000#32 ≠ 0x11000000#32 → w &&& 0x3B000000#32 ≠ 0x18000000#32 →
    ∃ t, exec (.unknown w) s = .next t ∧ step s = .next t ∧
      t.pc.toNat = s.pc.toNat + 4 ∧
      (∀ j : RegIdx, readReg t j = readReg s j) ∧
      t.notifyW = none ∧ t.notifyR = none ∧
      (∀ k : Fin 4, t.scratch[k] = 0#32) ∧
      t.status = .idle ∧ t.icache = s.icache ∧
      (∀ a : Nat, t.mem.readByte a = s.mem.readByte a)

/-- `ldr` completes where its target is inside the image (R120): `x[rt]` takes the four bytes at
`pc + offset`, little-endian, for `rt = 31` too (R122), and nothing else changes. -/
def Obligations.LdrLoadsTheWordAtItsTarget : Prop :=
  ∀ (opc : BitVec 2) (v : BitVec 1) (imm19 : BitVec 19) (rt : RegIdx) (s : State),
    s.mem.isImage = true → s.pc.toNat % 4 = 0 →
    (Config.base : Int) ≤ literalTarget s.pc imm19 →
    literalTarget s.pc imm19 < (Config.base : Int) + 4 * (imageLength s : Int) →
    ∃ t b0 b1 b2 b3, exec (.ldr opc v imm19 rt) s = .next t ∧
      s.mem.readByte (literalTarget s.pc imm19).toNat = some b0 ∧
      s.mem.readByte ((literalTarget s.pc imm19).toNat + 1) = some b1 ∧
      s.mem.readByte ((literalTarget s.pc imm19).toNat + 2) = some b2 ∧
      s.mem.readByte ((literalTarget s.pc imm19).toNat + 3) = some b3 ∧
      (readReg t rt).toNat =
        b0.toNat + 2 ^ 8 * b1.toNat + 2 ^ 16 * b2.toNat + 2 ^ 24 * b3.toNat ∧
      (∀ j : RegIdx, j ≠ rt → readReg t j = readReg s j) ∧
      t.notifyW = some rt ∧ t.notifyR = none ∧
      (∀ k : Fin 4, t.scratch[k] = 0#32) ∧
      (s.pc.toNat + 4 < 2 ^ 64 → t.pc.toNat = s.pc.toNat + 4) ∧
      t.status = s.status ∧ t.icache = s.icache ∧
      (∀ a : Nat, t.mem.readByte a = s.mem.readByte a)

/-- `ldr` takes `OutOfBoundsAccess` where its target is outside the image (92 D5, D8, D9, the spec's own
decisions): the record holds the instruction's address and word and the target as an integer; nothing
but `status` changes. -/
def Obligations.LdrOutsideTheImageFaults : Prop :=
  ∀ (opc : BitVec 2) (v : BitVec 1) (imm19 : BitVec 19) (rt : RegIdx) (s : State),
    (literalTarget s.pc imm19 < (Config.base : Int) ∨
      (Config.base : Int) + 4 * (imageLength s : Int) ≤ literalTarget s.pc imm19) →
    exec (.ldr opc v imm19 rt) s = .next
      { s with
        status := .faulted
          { code := .outOfBoundsAccess, pc := s.pc, word := some (encode (.ldr opc v imm19 rt)),
            addr := some (literalTarget s.pc imm19), index := none } }

/-- `add` takes `UnimplementedSemantics` in every state, for every form: its whole effect (92 D7, the
spec's own decision). Nothing but `status` changes. -/
def Obligations.AddTakesUnimplementedSemantics : Prop :=
  ∀ (sf sBit shift : BitVec 1) (imm12 : BitVec 12) (rn rd : RegIdx) (s : State),
    exec (.add sf sBit shift imm12 rn rd) s = .next
      { s with
        status := .faulted
          { code := .unimplementedSemantics, pc := s.pc,
            word := some (encode (.add sf sBit shift imm12 rn rd)), addr := none, index := none } }

/-- The bits that decode ignores change no effect (R121, R133): only the word a fault record shows
can differ. -/
def Obligations.IgnoredBitsChangeNoEffect : Prop :=
  (∀ (sf sf' sBit sBit' : BitVec 1) (rn rd : RegIdx) (s : State),
    exec (.mov sf sBit rn rd) s = exec (.mov sf' sBit' rn rd) s) ∧
  (∀ (opc opc' : BitVec 2) (v v' : BitVec 1) (imm19 : BitVec 19) (rt : RegIdx) (s t t' : State),
    exec (.ldr opc v imm19 rt) s = .next t → exec (.ldr opc' v' imm19 rt) s = .next t' →
    s.status = .idle →
    (t.status = .idle → t' = t) ∧
    (∀ r, t.status = .faulted r → ∃ w, t' = { t with status := .faulted { r with word := w } })) ∧
  (∀ (sf sf' sBit sBit' shift : BitVec 1) (imm12 : BitVec 12) (rn rd : RegIdx) (s t t' : State),
    exec (.add sf sBit shift imm12 rn rd) s = .next t →
    exec (.add sf' sBit' shift imm12 rn rd) s = .next t' →
    ∀ r, t.status = .faulted r → ∃ w, t' = { t with status := .faulted { r with word := w } })

/-! ### The step -/

/-- A step at a state whose bytes at the program counter decode to `i` is `exec` of `i` at that state:
the Instruction Cache that the fetch reads agrees with the image (R33, R47, 92 D19). That the step adds
nothing around `exec` is the model's choice, log entry 10: `exec` holds all that R102 does after the
fetch, the clearing, the advance of `pc` and the commit among it. -/
def Obligations.StepRunsTheDecodedInstruction : Prop :=
  ∀ (s : State) (b0 b1 b2 b3 : Byte) (i : Instr), s.Inv → s.status = .idle →
    s.mem.readByte s.pc.toNat = some b0 → s.mem.readByte (s.pc.toNat + 1) = some b1 →
    s.mem.readByte (s.pc.toNat + 2) = some b2 → s.mem.readByte (s.pc.toNat + 3) = some b3 →
    decodeBytes [b0, b1, b2, b3] = .ok (i, []) →
    step s = exec i s

/-- The fetch reads the Instruction Cache at index `(pc - BASE) / 4`, whatever the image holds,
and raises `OutOfBoundsFetch` exactly where `pc` is misaligned, below BASE or at `BASE + 4*L` or
above, for a cache of `L` instructions (R47; log entry 5). -/
def Obligations.FetchReadsTheInstructionCache : Prop :=
  ∀ (s : State),
    (s.pc.toNat % 4 ≠ 0 ∨ s.pc.toNat < Config.base ∨
        Config.base + 4 * s.icache.length ≤ s.pc.toNat →
      fetch s = .error { code := .outOfBoundsFetch, addr := none, index := none }) ∧
    (s.pc.toNat % 4 = 0 → Config.base ≤ s.pc.toNat →
        s.pc.toNat < Config.base + 4 * s.icache.length →
      ∃ i, s.icache[(s.pc.toNat - Config.base) / 4]? = some i ∧ fetch s = .ok i)

/-- R153: the fetch raises `OutOfBoundsFetch` (code 2) where `pc` is misaligned, below BASE or at
`BASE + 4*L` or above; under the invariant that happens exactly at `pc = BASE + 4*L`. -/
def Obligations.FetchFailsExactlyPastTheEnd : Prop :=
  Fatal.number .outOfBoundsFetch = 2 ∧
  (∀ s : State, s.icache.length = imageLength s →
    (s.pc.toNat % 4 ≠ 0 ∨ s.pc.toNat < Config.base ∨
      Config.base + 4 * imageLength s ≤ s.pc.toNat) →
    ∃ r, fetch s = .error r ∧ r.code = .outOfBoundsFetch) ∧
  (∀ s : State, s.Inv →
    ((∃ r, fetch s = .error r) ↔ s.pc.toNat = Config.base + 4 * imageLength s))

/-- The step past the last word (Scenario D): an `Idle` machine at `pc = BASE + 4*L` takes
`OutOfBoundsFetch` and changes nothing but `status` (92 D5, D9, the spec's own decisions); no step
elsewhere takes it. -/
def Obligations.StepPastTheEndTakesOutOfBoundsFetch : Prop :=
  ∀ s : State, s.Inv → s.status = .idle →
    (s.pc.toNat = Config.base + 4 * imageLength s →
      step s = .next
        { s with
          status := .faulted
            { code := .outOfBoundsFetch, pc := s.pc, word := none, addr := none,
              index := none } }) ∧
    (∀ t r, step s = .next t → t.status = .faulted r → r.code = .outOfBoundsFetch →
      s.pc.toNat = Config.base + 4 * imageLength s)

/-- In `Faulted` a step changes nothing and reports the recorded fault again, and `reset` returns the
machine to `Idle` (92 D6, the spec's own decision). -/
def Obligations.FaultedStepChangesNothing : Prop :=
  ∀ (s : State) (r : FaultRecord), s.status = .faulted r →
    step s = .next s ∧ stepResult s = .fatal r ∧ (resetMachine s).status = .idle

/-- A step that takes a fatal condition commits nothing but `status`; the record holds the
program counter, the word unless the fetch failed, the address for code 3 only, the index for code 5
only; the step reports the record (92 D5, D9, the spec's own decisions). -/
def Obligations.FatalConditionCommitsOnlyStatus : Prop :=
  ∀ (s t : State) (r : FaultRecord), s.status = .idle → step s = .next t →
    t.status = .faulted r →
    t = { s with status := .faulted r } ∧ r.pc = s.pc ∧
    (r.code = .outOfBoundsFetch → r.word = none) ∧
    (r.code ≠ .outOfBoundsFetch → ∃ i, fetch s = .ok i ∧ r.word = some (encode i)) ∧
    (r.addr.isSome ↔ r.code = .outOfBoundsAccess) ∧
    (r.index.isSome ↔ r.code = .registerIndexOutOfRange) ∧
    stepResult t = .fatal r

/-- A completed step adds 4 to `pc` (R26); a step that takes a fatal condition, and a step in
`Faulted`, leave `pc` (92 D5, D6, the spec's own decisions). -/
def Obligations.CompletedStepAddsFourToPc : Prop :=
  ∀ s t : State, s.Inv → step s = .next t →
    (t.status = .idle → t.pc.toNat = s.pc.toNat + 4) ∧ (t.status ≠ .idle → t.pc = s.pc)

/-- R43: nothing writes memory: no step and no `reset` changes the image, at any byte. -/
def Obligations.NothingWritesTheImage : Prop :=
  (∀ s t : State, step s = .next t →
    t.mem = s.mem ∧ ∀ a : Nat, t.mem.readByte a = s.mem.readByte a) ∧
  (∀ s : State, (resetMachine s).mem = s.mem)

/-- After a completed step (R30, R31) the notify record holds what its variant sets and nothing else,
whatever it held before, and scratch is 0; after a `reset` both fields are none. That a step over `add`
never completes is R131 with 92 D7, the spec's own decision (log entry 12). -/
def Obligations.NotifyRecordFollowsTheInstruction : Prop :=
  (∀ s : State, (resetMachine s).notifyW = none ∧ (resetMachine s).notifyR = none) ∧
  ∀ (s t : State) (i : Instr), s.status = .idle → fetch s = .ok i → step s = .next t →
    t.status = .idle →
    (∀ k : Fin 4, t.scratch[k] = 0#32) ∧
    match i with
    | .mov _ _ rn rd => t.notifyW = some rd ∧ t.notifyR = some rn
    | .ldr _ _ _ rt => t.notifyW = some rt ∧ t.notifyR = none
    | .unknown _ => t.notifyW = none ∧ t.notifyR = none
    | .add _ _ _ _ _ _ => False

/-- A register that a step changes is the one the notify record names (R23, R31). -/
def Obligations.ChangedRegisterIsNotified : Prop :=
  ∀ (s t : State) (j : RegIdx), step s = .next t → readReg t j ≠ readReg s j →
    t.status = .idle ∧ t.notifyW = some j

/-- The notify record and scratch are observation-only (R31, R36): two machines that differ in
nothing else complete the same step to the same state, and take the same fatal condition. -/
def Obligations.ObservationFieldsSteerNothing : Prop :=
  ∀ (s t : State) (nw nr : Option RegIdx) (sc : Vector Word 4), s.status = .idle →
    step s = .next t →
    ∃ t', step { s with notifyW := nw, notifyR := nr, scratch := sc } = .next t' ∧
      t'.status = t.status ∧ (t.status = .idle → t' = t)

/-- Which fatal condition a step of an `Idle` machine takes, and that codes 1 and 5 never
arise in a step (92 D9, D20, the spec's own decisions). -/
def Obligations.StepTakesTheFirstFailedCheck : Prop :=
  ∀ (s t : State) (r : FaultRecord), s.Inv → s.status = .idle → step s = .next t →
    t.status = .faulted r →
    (r.code = .outOfBoundsFetch ∧ s.pc.toNat = Config.base + 4 * imageLength s) ∨
    (r.code = .outOfBoundsAccess ∧ ∃ opc v imm19 rt, fetch s = .ok (.ldr opc v imm19 rt) ∧
      r.addr = some (literalTarget s.pc imm19) ∧
      (literalTarget s.pc imm19 < (Config.base : Int) ∨
        (Config.base : Int) + 4 * (imageLength s : Int) ≤ literalTarget s.pc imm19)) ∨
    (r.code = .unimplementedSemantics ∧
      ∃ sf sBit shift imm12 rn rd, fetch s = .ok (.add sf sBit shift imm12 rn rd))

/-- Every step ends in a next state, from every state (R187): the model stops in no step. -/
def Obligations.EveryStepEnds : Prop := ∀ s : State, ∃ t, step s = .next t

/-! ### Reset -/

/-- What `reset` sets in every state, and what it does not touch (R180; that it leaves `Idle` is 92 D6,
the spec's own decision). -/
def Obligations.ResetSetsEveryMutableComponent : Prop :=
  ∀ s : State,
    (resetMachine s).pc.toNat = 0x80000 ∧
    (∀ j : RegIdx, readReg (resetMachine s) j = 0#32) ∧
    (∀ k : Fin 4, (resetMachine s).scratch[k] = 0#32) ∧
    (resetMachine s).notifyW = none ∧ (resetMachine s).notifyR = none ∧
    (resetMachine s).status = .idle ∧
    (resetMachine s).mem = s.mem ∧ (resetMachine s).icache = s.icache

/-- R181: `reset` twice is `reset` once, and `reset` with no step leaves the program counter at BASE
and every register, scratch and notify field at its zero or none value. -/
def Obligations.ResetIsIdempotent : Prop :=
  ∀ s : State, resetMachine (resetMachine s) = resetMachine s ∧
    (resetMachine s).pc.toNat = Config.base ∧
    (∀ j : RegIdx, readReg (resetMachine s) j = 0#32) ∧
    (∀ k : Fin 4, (resetMachine s).scratch[k] = 0#32) ∧
    (resetMachine s).notifyW = none ∧ (resetMachine s).notifyR = none

/-- The values of `State.reset`, the machine with the empty image (R37; log entry 3: that no image
is loaded is the model's choice). -/
def Obligations.ResetStateValues : Prop :=
  State.reset.pc.toNat = 0x80000 ∧ (∀ j : RegIdx, readReg State.reset j = 0#32) ∧
    (∀ k : Fin 4, State.reset.scratch[k] = 0#32) ∧
    State.reset.notifyW = none ∧ State.reset.notifyR = none ∧ State.reset.status = .idle

/-! ### Loading -/

/-- `load` raises `ImageLoadFailure` when the file cannot be read, and for every length that is
no multiple of 4; an empty file is not a failure (R152; the empty file is 92 D17,
the spec's own decision; a file as optional bytes is log entry 6). -/
def Obligations.LoadFailsOnBadFiles : Prop :=
  load none = .fault .imageLoadFailure ∧
  (∀ bytes : List Byte, bytes.length % 4 ≠ 0 → load (some bytes) = .fault .imageLoadFailure) ∧
  (∃ s, load (some []) = .next s)

/-- Every whole-word image that ends below the top of the address space loads; the
bytes of the file stand at BASE and up, the words are little-endian, the rest is the reset state, and
the invariant holds (R44, R55; 92 D4, D10, the spec's own decisions). -/
def Obligations.LoadBuildsTheMachine : Prop :=
  ∀ bytes : List Byte, bytes.length % 4 = 0 → Config.base + bytes.length < 2 ^ 64 →
    ∃ s, load (some bytes) = .next s ∧ s.Inv ∧ resetMachine s = s ∧
      4 * imageLength s = bytes.length ∧
      (∀ k : Nat, s.mem.readByte (Config.base + k) = bytes[k]?) ∧
      (∀ i b0 b1 b2 b3, bytes[4 * i]? = some b0 → bytes[4 * i + 1]? = some b1 →
        bytes[4 * i + 2]? = some b2 → bytes[4 * i + 3]? = some b3 →
        ∃ w, s.mem.readWord (Config.base + 4 * i) = some w ∧
          w.toNat = b0.toNat + 2 ^ 8 * b1.toNat + 2 ^ 16 * b2.toNat + 2 ^ 24 * b3.toNat)

/-- R33: a loaded machine's Instruction Cache is the image decoded word by word, no step and no `reset`
changes it, and it has one entry per image word, whose `word` is the image's. -/
def Obligations.CacheHoldsTheImageWords : Prop :=
  (∀ (image : Option (List Byte)) (s : State), load image = .next s →
    s.icache = (imageWords s.mem).map decode) ∧
  (∀ s t : State, step s = .next t → t.icache = s.icache) ∧
  (∀ s : State, (resetMachine s).icache = s.icache) ∧
  (∀ s : State, s.Inv → s.icache.length = imageLength s ∧
    ∀ i : Nat, i < imageLength s →
      ∃ ins, s.icache[i]? = some ins ∧ s.mem.readWord (Config.base + 4 * i) = some (encode ins))

/-- A data read in an image (R41, R42): the image word at a valid address, `OutOfBoundsAccess` with the
address at any other integer (92 D8, the spec's own decision). -/
def Obligations.MemReadReadsImageWords : Prop :=
  ∀ (s : State) (a : Int), s.mem.isImage = true →
    (a % 4 = 0 → (Config.base : Int) ≤ a → a < (Config.base : Int) + 4 * (imageLength s : Int) →
      ∃ w, (imageWords s.mem)[((a - Config.base) / 4).toNat]? = some w ∧ memRead s a = .ok w) ∧
    (a % 4 ≠ 0 ∨ a < (Config.base : Int) ∨
        (Config.base : Int) + 4 * (imageLength s : Int) ≤ a →
      memRead s a = .error { code := .outOfBoundsAccess, addr := some a, index := none })

/-- Line `i` of the listing shows entry `i` of the Instruction Cache at address `BASE + 4*i`, its
word, mnemonic and operand string, and there is no other line (R35). -/
def Obligations.ListingShowsTheCache : Prop :=
  ∀ (s : State) (i : Nat), (listing s)[i]? = (s.icache[i]?).map fun ins =>
    { address := Config.base + 4 * i, word := encode ins, mnemonic := mnemonic ins, arg := arg ins }

/-- An instruction's word placed where the machine fetches is the one the next step runs, in every
state (log entry 3: the placing is the model's own). -/
def Obligations.PlacedWordIsTheOneThatRuns : Prop :=
  ∀ (s : State) (w : Nat), w < 2 ^ 32 →
    decodeTableWord 32 w = some (decode (BitVec.ofNat 32 w)) ∧
    step (s.withFetchWord 32 w) = exec (decode (BitVec.ofNat 32 w)) (s.withFetchWord 32 w)

/-! ### Invariants and runs -/

/-- The invariant holds at `State.reset`, the machine with the empty image (R27, R30, R33, R37; that no
image is loaded is log entry 3, the invariant's bound on the image log entry 2). -/
def Obligations.InvariantHoldsAtReset : Prop := State.reset.Inv

/-- Every step keeps the invariant, from every state that has it (R27, R30, R33, R40, R158). -/
def Obligations.StepKeepsTheInvariant : Prop :=
  ∀ s t : State, s.Inv → step s = .next t → t.Inv

/-- `reset` keeps the invariant (R27, R180). -/
def Obligations.ResetKeepsTheInvariant : Prop := ∀ s : State, s.Inv → (resetMachine s).Inv

/-- In every state a host reaches from a loaded image, by any sequence of steps and resets,
`pc` is aligned and between BASE and the image's end, the image is the loaded one and the Instruction
Cache is its decoding (R27, R34). -/
def Obligations.ReachableStatesStayInTheImage : Prop :=
  ∀ (image : List Byte) (s : State), Config.base + image.length < 2 ^ 64 → Reachable image s →
    s.Inv ∧ s.mem = Memory.ofBytes Config.base image ∧
      s.pc.toNat % 4 = 0 ∧ Config.base ≤ s.pc.toNat ∧
      s.pc.toNat ≤ Config.base + image.length

/-- There is no halt (R109), and no run goes on for ever: from every state with the invariant the run
of `L + 1` steps, and every longer one, exists and has ended in a fatal condition. -/
def Obligations.EveryRunEndsInAFatalCondition : Prop :=
  ∀ (s : State) (n : Nat), s.Inv → imageLength s < n →
    ∃ t, Host.Core.run Sys2Proof.core n s = .next t ∧ t.ended = true

/-- Once a fatal condition is taken no number of steps changes anything; `reset` returns
the machine to `Idle` (92 D6, the spec's own decision). -/
def Obligations.FaultedUntilReset : Prop :=
  ∀ (s : State) (r : FaultRecord) (n : Nat), s.status = .faulted r →
    Host.Core.run Sys2Proof.core n s = .next s ∧ (resetMachine s).status = .idle

/-- After `n` completed steps the program counter has moved by `4 * n`, whatever the
instructions were: there is no control transfer (R26, R107). -/
def Obligations.RunsAreStraightLines : Prop :=
  ∀ (s t : State) (n : Nat), s.Inv → Host.Core.run Sys2Proof.core n s = .next t →
    t.status = .idle → t.pc.toNat = s.pc.toNat + 4 * n
end

