-- ==== Sys2Proof/Laws/Memory.lean ====
section
/-! SUPPORT. What the image's reads and the loader do, said once: the canonical form every memory
operation keeps, the byte and the word an image holds at an address, and the words the Instruction
Cache is built from. -/

namespace Sys2Proof.Machine

/-- The little-endian word of four bytes as a number (20_memory.md R44). -/
theorem toNat_wordOfBytes (b0 b1 b2 b3 : Byte) :
    (wordOfBytes b0 b1 b2 b3).toNat =
      b0.toNat + 2 ^ 8 * b1.toNat + 2 ^ 16 * b2.toNat + 2 ^ 24 * b3.toNat := by
  simp only [wordOfBytes, BitVec.toNat_append]
  rw [← Nat.shiftLeft_add_eq_or_of_lt b2.isLt, ← Nat.shiftLeft_add_eq_or_of_lt b1.isLt,
    ← Nat.shiftLeft_add_eq_or_of_lt b0.isLt]
  simp only [Nat.shiftLeft_eq]
  omega

@[simp] theorem length_ofBytes (a : Nat) (bs : List Byte) :
    (Memory.ofBytes a bs).length = bs.length := by
  induction bs generalizing a with
  | nil => rfl
  | cons b bs ih => simp [Memory.ofBytes, ih]

theorem addresses_ofBytes (a : Nat) (bs : List Byte) :
    (Memory.ofBytes a bs).map Prod.fst = List.range' a bs.length := by
  induction bs generalizing a with
  | nil => rfl
  | cons b bs ih => simp [Memory.ofBytes, ih, List.range'_succ]

theorem bytes_ofBytes (a : Nat) (bs : List Byte) :
    (Memory.ofBytes a bs).map Prod.snd = bs := by
  induction bs generalizing a with
  | nil => rfl
  | cons b bs ih => simp [Memory.ofBytes, ih]

/-- Bytes laid out at rising addresses are in canonical form: `load` and the placing of a fetch word,
the only operations that make a memory, keep it. -/
theorem ofBytes_wf (a : Nat) (bs : List Byte) : (Memory.ofBytes a bs).wf = true := by
  induction bs generalizing a with
  | nil => rfl
  | cons b bs ih =>
    cases bs with
    | nil => rfl
    | cons c bs =>
      have := ih (a + 1)
      simp only [Memory.ofBytes, Memory.wf, Bool.and_eq_true, decide_eq_true_eq] at this ⊢
      exact ⟨by omega, this⟩

/-- A memory is determined by its addresses and its bytes. -/
theorem eq_ofBytes_of_addresses (m : Memory) (a : Nat)
    (h : m.map Prod.fst = List.range' a m.length) : m = Memory.ofBytes a (m.map Prod.snd) := by
  induction m generalizing a with
  | nil => rfl
  | cons c m ih =>
    obtain ⟨x, b⟩ := c
    simp only [List.map_cons, List.length_cons, List.range'_succ, List.cons.injEq] at h
    obtain ⟨rfl, h⟩ := h
    simp only [List.map_cons, Memory.ofBytes, List.cons.injEq, true_and]
    exact ih _ h

/-- An image is its bytes laid out at BASE, in whole words (20_memory.md R40). -/
theorem isImage_iff (m : Memory) :
    m.isImage = true ↔ m = Memory.ofBytes Config.base (m.map Prod.snd) ∧ m.length % 4 = 0 := by
  simp only [Memory.isImage, Bool.and_eq_true, decide_eq_true_eq]
  constructor
  · rintro ⟨h, h4⟩
    exact ⟨eq_ofBytes_of_addresses m _ h, h4⟩
  · rintro ⟨h, h4⟩
    refine ⟨?_, h4⟩
    conv_lhs => rw [h]
    rw [addresses_ofBytes, List.length_map]

theorem ofBytes_isImage (bs : List Byte) (h : bs.length % 4 = 0) :
    (Memory.ofBytes Config.base bs).isImage = true := by
  simp [Memory.isImage, addresses_ofBytes, h]

/-- An image is in canonical form. -/
theorem isImage_wf (m : Memory) (h : m.isImage = true) : m.wf = true := by
  rw [((isImage_iff m).1 h).1]
  exact ofBytes_wf _ _

/-- The byte at an address of laid-out bytes (20_memory.md R40, R44). -/
theorem readByte_ofBytes (a : Nat) (bs : List Byte) (x : Nat) :
    (Memory.ofBytes a bs).readByte x = if x < a then none else bs[x - a]? := by
  induction bs generalizing a with
  | nil => simp [Memory.ofBytes, Memory.readByte]
  | cons b bs ih =>
    simp only [Memory.ofBytes, Memory.readByte, ih]
    rcases Nat.lt_trichotomy x a with h | h | h
    · rw [if_neg (by omega), if_pos (by omega), if_pos h]
    · subst h; simp
    · rw [if_neg (by omega), if_neg (by omega), if_neg (by omega)]
      obtain ⟨d, rfl⟩ : ∃ d, x = a + 1 + d := ⟨x - (a + 1), by omega⟩
      rw [show a + 1 + d - (a + 1) = d by omega, show a + 1 + d - a = d + 1 by omega]
      simp

/-- The word at the address of word `i` of laid-out bytes is word `i` of the image (R40, R44). -/
theorem readWord_ofBytes (a : Nat) (bs : List Byte) (i : Nat) (h : 4 * i + 3 < bs.length) :
    (Memory.ofBytes a bs).readWord (a + 4 * i) = (imageWords (Memory.ofBytes a bs))[i]? := by
  induction i generalizing a bs with
  | zero =>
    obtain _ | ⟨b0, _ | ⟨b1, _ | ⟨b2, _ | ⟨b3, bs⟩⟩⟩⟩ := bs <;>
      simp only [List.length_cons, List.length_nil] at h
    iterate 4 omega
    simp [Memory.readWord, Memory.ofBytes, Memory.readByte, imageWords]
  | succ n ih =>
    obtain _ | ⟨b0, _ | ⟨b1, _ | ⟨b2, _ | ⟨b3, bs⟩⟩⟩⟩ := bs <;>
      simp only [List.length_cons, List.length_nil] at h
    iterate 4 omega
    have hr : ∀ x, a + 4 ≤ x → (Memory.ofBytes a (b0 :: b1 :: b2 :: b3 :: bs)).readByte x =
        (Memory.ofBytes (a + 4) bs).readByte x := by
      intro x hx
      simp only [Memory.ofBytes, Memory.readByte]
      rw [if_neg (by omega), if_neg (by omega), if_neg (by omega), if_neg (by omega)]
    have hw : (imageWords (Memory.ofBytes a (b0 :: b1 :: b2 :: b3 :: bs)))[n + 1]? =
        (imageWords (Memory.ofBytes (a + 4) bs))[n]? := by
      simp [Memory.ofBytes, imageWords, Nat.add_assoc]
    rw [hw, ← ih (a + 4) bs (by omega), show a + 4 * (n + 1) = a + 4 + 4 * n by omega]
    simp only [Memory.readWord, hr _ (show a + 4 ≤ a + 4 + 4 * n by omega),
      hr _ (show a + 4 ≤ a + 4 + 4 * n + 1 by omega),
      hr _ (show a + 4 ≤ a + 4 + 4 * n + 2 by omega),
      hr _ (show a + 4 ≤ a + 4 + 4 * n + 3 by omega)]

/-- The word an image holds at `BASE + 4*i` (R40, R42). -/
theorem readWord_image (m : Memory) (hm : m.isImage = true) (i : Nat) (hi : i < m.length / 4) :
    m.readWord (Config.base + 4 * i) = (imageWords m)[i]? := by
  have he := ((isImage_iff m).1 hm).1
  rw [he]
  exact readWord_ofBytes _ _ _ (by rw [List.length_map]; omega)

@[simp] theorem length_imageWords (m : Memory) : (imageWords m).length = m.length / 4 := by
  induction m using imageWords.induct with
  | case1 a0 b0 a1 b1 a2 b2 a3 b3 m ih => simp [imageWords, ih]; omega
  | case2 m h =>
    rw [imageWords.eq_2 m h]
    obtain _ | ⟨c0, _ | ⟨c1, _ | ⟨c2, _ | ⟨c3, m⟩⟩⟩⟩ := m
    iterate 4 simp
    exact (h _ _ _ _ _ _ _ _ _ rfl).elim

@[simp] theorem length_build (m : Memory) : (build m).length = m.length / 4 := by
  simp [build]

/-- Entry `i` of the Instruction Cache that `build` makes (30_encoding.md R69). -/
theorem build_getElem? (m : Memory) (i : Nat) :
    (build m)[i]? = ((imageWords m)[i]?).map decode := by
  simp [build]

end Sys2Proof.Machine
end

