-- ==== Sys2Proof/Laws/State.lean ====
section
/-! SUPPORT. One lemma per field per update of the state, so that no later proof unfolds a record
update, and the reads of a register after each update. -/

namespace Sys2Proof.Machine

@[simp] theorem writeReg_pc (s : State) (i : RegIdx) (v : Word) : (writeReg s i v).pc = s.pc := rfl
@[simp] theorem writeReg_regs (s : State) (i : RegIdx) (v : Word) :
    (writeReg s i v).regs = s.regs.set i.toNat v i.isLt := rfl
@[simp] theorem writeReg_scratch (s : State) (i : RegIdx) (v : Word) :
    (writeReg s i v).scratch = s.scratch := rfl
@[simp] theorem writeReg_notifyW (s : State) (i : RegIdx) (v : Word) :
    (writeReg s i v).notifyW = s.notifyW := rfl
@[simp] theorem writeReg_notifyR (s : State) (i : RegIdx) (v : Word) :
    (writeReg s i v).notifyR = s.notifyR := rfl
@[simp] theorem writeReg_status (s : State) (i : RegIdx) (v : Word) :
    (writeReg s i v).status = s.status := rfl
@[simp] theorem writeReg_icache (s : State) (i : RegIdx) (v : Word) :
    (writeReg s i v).icache = s.icache := rfl
@[simp] theorem writeReg_mem (s : State) (i : RegIdx) (v : Word) :
    (writeReg s i v).mem = s.mem := rfl

@[simp] theorem notifyWrite_pc (s : State) (i : RegIdx) : (notifyWrite s i).pc = s.pc := rfl
@[simp] theorem notifyWrite_regs (s : State) (i : RegIdx) : (notifyWrite s i).regs = s.regs := rfl
@[simp] theorem notifyWrite_scratch (s : State) (i : RegIdx) :
    (notifyWrite s i).scratch = s.scratch := rfl
@[simp] theorem notifyWrite_notifyW (s : State) (i : RegIdx) :
    (notifyWrite s i).notifyW = some i := rfl
@[simp] theorem notifyWrite_notifyR (s : State) (i : RegIdx) :
    (notifyWrite s i).notifyR = s.notifyR := rfl
@[simp] theorem notifyWrite_status (s : State) (i : RegIdx) :
    (notifyWrite s i).status = s.status := rfl
@[simp] theorem notifyWrite_icache (s : State) (i : RegIdx) :
    (notifyWrite s i).icache = s.icache := rfl
@[simp] theorem notifyWrite_mem (s : State) (i : RegIdx) : (notifyWrite s i).mem = s.mem := rfl

@[simp] theorem notifyRead_pc (s : State) (i : RegIdx) : (notifyRead s i).pc = s.pc := rfl
@[simp] theorem notifyRead_regs (s : State) (i : RegIdx) : (notifyRead s i).regs = s.regs := rfl
@[simp] theorem notifyRead_scratch (s : State) (i : RegIdx) :
    (notifyRead s i).scratch = s.scratch := rfl
@[simp] theorem notifyRead_notifyW (s : State) (i : RegIdx) :
    (notifyRead s i).notifyW = s.notifyW := rfl
@[simp] theorem notifyRead_notifyR (s : State) (i : RegIdx) :
    (notifyRead s i).notifyR = some i := rfl
@[simp] theorem notifyRead_status (s : State) (i : RegIdx) :
    (notifyRead s i).status = s.status := rfl
@[simp] theorem notifyRead_icache (s : State) (i : RegIdx) :
    (notifyRead s i).icache = s.icache := rfl
@[simp] theorem notifyRead_mem (s : State) (i : RegIdx) : (notifyRead s i).mem = s.mem := rfl

@[simp] theorem beginStep_pc (s : State) : (beginStep s).pc = s.pc := rfl
@[simp] theorem beginStep_regs (s : State) : (beginStep s).regs = s.regs := rfl
@[simp] theorem beginStep_scratch (s : State) :
    (beginStep s).scratch = Vector.replicate 4 0#32 := rfl
@[simp] theorem beginStep_notifyW (s : State) : (beginStep s).notifyW = none := rfl
@[simp] theorem beginStep_notifyR (s : State) : (beginStep s).notifyR = none := rfl
@[simp] theorem beginStep_status (s : State) : (beginStep s).status = s.status := rfl
@[simp] theorem beginStep_icache (s : State) : (beginStep s).icache = s.icache := rfl
@[simp] theorem beginStep_mem (s : State) : (beginStep s).mem = s.mem := rfl

@[simp] theorem advancePc_pc (s : State) : (advancePc s).pc = nextPc s.pc := rfl
@[simp] theorem advancePc_regs (s : State) : (advancePc s).regs = s.regs := rfl
@[simp] theorem advancePc_scratch (s : State) : (advancePc s).scratch = s.scratch := rfl
@[simp] theorem advancePc_notifyW (s : State) : (advancePc s).notifyW = s.notifyW := rfl
@[simp] theorem advancePc_notifyR (s : State) : (advancePc s).notifyR = s.notifyR := rfl
@[simp] theorem advancePc_status (s : State) : (advancePc s).status = s.status := rfl
@[simp] theorem advancePc_icache (s : State) : (advancePc s).icache = s.icache := rfl
@[simp] theorem advancePc_mem (s : State) : (advancePc s).mem = s.mem := rfl

@[simp] theorem takeFatal_pc (s : State) (w : Option Word) (r : Raise) :
    (takeFatal s w r).pc = s.pc := rfl
@[simp] theorem takeFatal_regs (s : State) (w : Option Word) (r : Raise) :
    (takeFatal s w r).regs = s.regs := rfl
@[simp] theorem takeFatal_scratch (s : State) (w : Option Word) (r : Raise) :
    (takeFatal s w r).scratch = s.scratch := rfl
@[simp] theorem takeFatal_notifyW (s : State) (w : Option Word) (r : Raise) :
    (takeFatal s w r).notifyW = s.notifyW := rfl
@[simp] theorem takeFatal_notifyR (s : State) (w : Option Word) (r : Raise) :
    (takeFatal s w r).notifyR = s.notifyR := rfl
@[simp] theorem takeFatal_status (s : State) (w : Option Word) (r : Raise) :
    (takeFatal s w r).status =
      .faulted { code := r.code, pc := s.pc, word := w, addr := r.addr, index := r.index } := rfl
@[simp] theorem takeFatal_icache (s : State) (w : Option Word) (r : Raise) :
    (takeFatal s w r).icache = s.icache := rfl
@[simp] theorem takeFatal_mem (s : State) (w : Option Word) (r : Raise) :
    (takeFatal s w r).mem = s.mem := rfl

@[simp] theorem resetMachine_pc (s : State) :
    (resetMachine s).pc = BitVec.ofNat 64 Config.base := rfl
@[simp] theorem resetMachine_regs (s : State) :
    (resetMachine s).regs = Vector.replicate 32 0#32 := rfl
@[simp] theorem resetMachine_scratch (s : State) :
    (resetMachine s).scratch = Vector.replicate 4 0#32 := rfl
@[simp] theorem resetMachine_notifyW (s : State) : (resetMachine s).notifyW = none := rfl
@[simp] theorem resetMachine_notifyR (s : State) : (resetMachine s).notifyR = none := rfl
@[simp] theorem resetMachine_status (s : State) : (resetMachine s).status = .idle := rfl
@[simp] theorem resetMachine_icache (s : State) : (resetMachine s).icache = s.icache := rfl
@[simp] theorem resetMachine_mem (s : State) : (resetMachine s).mem = s.mem := rfl

/-- Reading a register after writing one (10_state.md R21, R22): the written one holds the value, every
other one, register 31 among them, is as before. -/
theorem readReg_writeReg (s : State) (i j : RegIdx) (v : Word) :
    readReg (writeReg s i v) j = if j = i then v else readReg s j := by
  by_cases h : j = i
  · subst h; simp [readReg, writeReg]
  · have hn : i.toNat ≠ j.toNat := fun e => h (BitVec.eq_of_toNat_eq e.symm)
    simp only [readReg, writeReg, h, if_false]
    exact Vector.getElem_set_ne _ _ hn

@[simp] theorem readReg_notifyWrite (s : State) (i j : RegIdx) :
    readReg (notifyWrite s i) j = readReg s j := rfl
@[simp] theorem readReg_notifyRead (s : State) (i j : RegIdx) :
    readReg (notifyRead s i) j = readReg s j := rfl
@[simp] theorem readReg_beginStep (s : State) (j : RegIdx) :
    readReg (beginStep s) j = readReg s j := rfl
@[simp] theorem readReg_advancePc (s : State) (j : RegIdx) :
    readReg (advancePc s) j = readReg s j := rfl
@[simp] theorem readReg_takeFatal (s : State) (w : Option Word) (r : Raise) (j : RegIdx) :
    readReg (takeFatal s w r) j = readReg s j := rfl

end Sys2Proof.Machine
end

