-- ==== Sys2Proof/Laws/Ops.lean ====
section
/-! SUPPORT. What each shared operation of the machine can do, said once. -/

namespace Sys2Proof.Machine

/-- Every 5-bit index names a register, so the check of R71 never fails (10_state.md R24). -/
@[simp] theorem badIndex_eq_none (i : Instr) : badIndex i = none := by
  rw [badIndex, List.find?_eq_none]
  intro k _ hk
  exact absurd k.isLt (Nat.not_lt.2 (of_decide_eq_true hk))

theorem nextPc_of_lt (pc : Addr) (h : pc.toNat + 4 < 2 ^ 64) : (nextPc pc).toNat = pc.toNat + 4 := by
  simp only [nextPc, h, if_true]
  rw [BitVec.toNat_add, show (4#64).toNat = 4 from rfl, Nat.mod_eq_of_lt h]

/-- The free value keeps the program counter aligned and outside every image (log entry 2). -/
theorem nextPc_of_ge (pc : Addr) (h : ¬ pc.toNat + 4 < 2 ^ 64) :
    (nextPc pc).toNat < Config.base ∧ (nextPc pc).toNat % 4 = 0 := by
  have hm := Nat.mod_lt (Config.pcPastTop pc).toNat (show 0 < Config.base / 4 by decide)
  simp only [nextPc, h, if_false, BitVec.toNat_ofNat]
  simp only [Config.base] at hm ⊢
  omega

/-- What a data read can do: the word at a valid address, or `OutOfBoundsAccess` (20_memory.md R42). -/
theorem memRead_cases (s : State) (a : Int) :
    (∃ w, validAddr s a = true ∧ s.mem.readWord a.toNat = some w ∧ memRead s a = .ok w) ∨
      memRead s a = .error (accessRaise a) := by
  unfold memRead
  split
  · cases h : s.mem.readWord a.toNat with
    | some w => exact .inl ⟨w, ‹_›, rfl, rfl⟩
    | none => exact .inr rfl
  · exact .inr rfl

theorem validAddr_iff (s : State) (a : Int) :
    validAddr s a = true ↔
      a % 4 = 0 ∧ (Config.base : Int) ≤ a ∧ a < (Config.base : Int) + 4 * (imageLength s : Int) := by
  simp only [validAddr, Bool.and_eq_true, decide_eq_true_eq, and_assoc]

/-- In an image every valid address reads a word (R41, R42). -/
theorem memRead_image (s : State) (hm : s.mem.isImage = true) (a : Int)
    (ha : validAddr s a = true) :
    ∃ w, s.mem.readWord a.toNat = some w ∧ memRead s a = .ok w := by
  obtain ⟨h4, hlo, hhi⟩ := (validAddr_iff s a).1 ha
  have hb : Config.base % 4 = 0 := by decide
  obtain ⟨i, hi⟩ : ∃ i : Nat, a.toNat = Config.base + 4 * i :=
    ⟨(a.toNat - Config.base) / 4, by omega⟩
  have hlt : i < imageLength s := by omega
  have hw := readWord_image s.mem hm i hlt
  rw [List.getElem?_eq_getElem (by rw [length_imageWords]; exact hlt)] at hw
  exact ⟨_, by rw [hi]; exact hw, by rw [memRead, if_pos ha, hi, hw]⟩

theorem memRead_invalid (s : State) (a : Int) (ha : validAddr s a = false) :
    memRead s a = .error (accessRaise a) := by
  simp [memRead, ha]

/-- What the fetch can do: the Instruction Cache's entry, or `OutOfBoundsFetch` (R47). -/
theorem fetch_cases (s : State) :
    (∃ i, fetchAligned s.pc = true ∧ s.icache[fetchIndex s.pc]? = some i ∧ fetch s = .ok i) ∨
      ((fetchAligned s.pc = false ∨ s.icache.length ≤ fetchIndex s.pc) ∧
        fetch s = .error fetchRaise) := by
  unfold fetch
  split
  · cases h : s.icache[fetchIndex s.pc]? with
    | some i => exact .inl ⟨i, ‹_›, rfl, rfl⟩
    | none => exact .inr ⟨.inr (List.getElem?_eq_none_iff.1 h), rfl⟩
  · exact .inr ⟨.inl (by simp_all), rfl⟩

/-- The two ends of a step (40_execution_engine.md R102). -/
theorem finishStep_ok (s t : State) (w : Word) : finishStep s w (.ok t) = .next (advancePc t) := rfl

theorem finishStep_error (s : State) (w : Word) (r : Raise) :
    finishStep s w (.error r) = .next (takeFatal s (some w) r) := rfl

/-- What `ldr` can do (41_load_literal.md R120): load the word at its target, or take the fatal
condition of the read. -/
theorem execLdr_cases (opc : BitVec 2) (v : BitVec 1) (imm19 : BitVec 19) (rt : RegIdx)
    (s : State) :
    (∃ w, memRead s (literalTarget s.pc imm19) = .ok w ∧
      execLdr opc v imm19 rt s =
        .next (advancePc (notifyWrite (writeReg (beginStep s) rt w) rt))) ∨
    (memRead s (literalTarget s.pc imm19) = .error (accessRaise (literalTarget s.pc imm19)) ∧
      execLdr opc v imm19 rt s =
        .next (takeFatal s (some (encode (.ldr opc v imm19 rt)))
          (accessRaise (literalTarget s.pc imm19)))) := by
  have hb : memRead (beginStep s) (literalTarget (beginStep s).pc imm19) =
      memRead s (literalTarget s.pc imm19) := rfl
  obtain ⟨w, -, -, hw⟩ | he := memRead_cases s (literalTarget s.pc imm19)
  · exact .inl ⟨w, hw, by simp only [execLdr, ldrBody, hb, hw, finishStep_ok]⟩
  · exact .inr ⟨he, by simp only [execLdr, ldrBody, hb, he, finishStep_error]⟩

/-- What one instruction can do (R105): each arm's next state, the fatal conditions among them. -/
theorem exec_cases (i : Instr) (s : State) :
    (∃ sf sBit rn rd, i = .mov sf sBit rn rd ∧
      exec i s = .next (advancePc (movBody rn rd (beginStep s)))) ∨
    (∃ sf sBit shift imm12 rn rd, i = .add sf sBit shift imm12 rn rd ∧
      exec i s = .next (takeFatal s (some (encode i)) addRaise)) ∨
    (∃ opc v imm19 rt w, i = .ldr opc v imm19 rt ∧
      memRead s (literalTarget s.pc imm19) = .ok w ∧
      exec i s = .next (advancePc (notifyWrite (writeReg (beginStep s) rt w) rt))) ∨
    (∃ opc v imm19 rt, i = .ldr opc v imm19 rt ∧
      memRead s (literalTarget s.pc imm19) = .error (accessRaise (literalTarget s.pc imm19)) ∧
      exec i s =
        .next (takeFatal s (some (encode i)) (accessRaise (literalTarget s.pc imm19)))) ∨
    (∃ w, i = .unknown w ∧ exec i s = .next (advancePc (beginStep s))) := by
  cases i with
  | mov sf sBit rn rd => exact .inl ⟨sf, sBit, rn, rd, rfl, rfl⟩
  | add sf sBit shift imm12 rn rd =>
    exact .inr (.inl ⟨sf, sBit, shift, imm12, rn, rd, rfl, rfl⟩)
  | ldr opc v imm19 rt =>
    obtain ⟨w, hw, e⟩ | ⟨he, e⟩ := execLdr_cases opc v imm19 rt s
    · exact .inr (.inr (.inl ⟨opc, v, imm19, rt, w, rfl, hw, e⟩))
    · exact .inr (.inr (.inr (.inl ⟨opc, v, imm19, rt, rfl, he, e⟩)))
  | unknown w => exact .inr (.inr (.inr (.inr ⟨w, rfl, rfl⟩)))

/-- What one step can do (R102, R103): nothing in `Faulted`; else the fetch's fatal condition, or the
fetched instruction. -/
theorem step_cases (s : State) :
    (∃ r, s.status = .faulted r ∧ step s = .next s) ∨
    (s.status = .idle ∧ fetch s = .error fetchRaise ∧
      step s = .next (takeFatal s none fetchRaise)) ∨
    (∃ i, s.status = .idle ∧ fetch s = .ok i ∧ step s = exec i s) := by
  unfold step stepCycle
  cases hs : s.status with
  | faulted r => exact .inl ⟨r, rfl, rfl⟩
  | idle =>
    obtain ⟨i, -, -, hi⟩ | ⟨-, he⟩ := fetch_cases s
    · exact .inr (.inr ⟨i, rfl, hi, by simp [hi]⟩)
    · exact .inr (.inl ⟨rfl, he, by simp [he]⟩)

end Sys2Proof.Machine
end

