-- ==== Sys2Proof/Laws/PerInstr.lean ====
section
/-! SUPPORT. Statements made for every instruction, one lemma per constructor of `Instr`. -/

namespace Sys2Proof.Laws

/-- Every register field of the instruction names a register (10_state.md R24, 30_encoding.md R71). -/
def IndicesInRange.Statement (i : Instr) : Prop := ∀ k ∈ indices i, k.toNat < Config.nreg

theorem IndicesInRange.mov (sf sBit : BitVec 1) (rn rd : RegIdx) :
    IndicesInRange.Statement (.mov sf sBit rn rd) := fun k _ => k.isLt

theorem IndicesInRange.add (sf sBit shift : BitVec 1) (imm12 : BitVec 12) (rn rd : RegIdx) :
    IndicesInRange.Statement (.add sf sBit shift imm12 rn rd) := fun k _ => k.isLt

theorem IndicesInRange.ldr (opc : BitVec 2) (v : BitVec 1) (imm19 : BitVec 19) (rt : RegIdx) :
    IndicesInRange.Statement (.ldr opc v imm19 rt) := fun k _ => k.isLt

theorem IndicesInRange.unknown (word : Word) :
    IndicesInRange.Statement (.unknown word) := fun k _ => k.isLt

end Sys2Proof.Laws
end

