-- ==== Sys2Proof/Laws/Run.lean ====
section
/-! SUPPORT. The runs of the machine, one step at a time. -/

namespace Sys2Proof.Machine

@[simp] theorem run_zero (s : State) : Host.Core.run Sys2Proof.core 0 s = .next s := rfl

/-- A run of one more step is the step and then the run. -/
theorem run_succ (n : Nat) {s t : State} (h : step s = .next t) :
    Host.Core.run Sys2Proof.core (n + 1) s = Host.Core.run Sys2Proof.core n t := by
  have hc : Sys2Proof.core.step s = .next t := h
  simp only [Host.Core.run]
  rw [hc]

@[simp] theorem toNat_resetMachine_pc (s : State) :
    (resetMachine s).pc.toNat = Config.base := rfl

@[simp] theorem toNat_reset_pc : State.reset.pc.toNat = Config.base := rfl

end Sys2Proof.Machine
end

