-- ==== Sys2Proof/Tests/Slice0.lean ====
section
/-! SUPPORT. The model's own tests: ill-formed terms, words written out bit by bit from the spec's
encodings, the spec's vectors (95_test_vectors.md), and a witness for every statement with
hypotheses. -/

namespace Sys2Proof.Tests

open Sys2Proof Sys2Proof.Machine

/-! ### Well-formedness refuses -/

theorem test_wf_refuses_mov_without_register_31 : (Instr.mov 1#1 0#1 1#5 2#5).wf = false := by decide
theorem test_wf_refuses_add_with_alias_fields :
    (Instr.add 1#1 0#1 0#1 0#12 31#5 2#5).wf = false := by decide
theorem test_wf_refuses_unknown_with_ai_word : (Instr.unknown 0x91000020#32).wf = false := by decide
theorem test_wf_refuses_unknown_with_ll_word : (Instr.unknown 0x58000041#32).wf = false := by decide

/-! ### Decoding, the words in the bits of R61 and R63 (V-D7, V-D11, V-D16, V-D20) -/

theorem test_decode_ldr_most_negative :
    decode 0b01011000100000000000000000000000#32 = .ldr 0b01#2 0#1 0x40000#19 0#5 := by decide
theorem test_decode_mov_x2_sp :
    decode 0b10010001000000000000001111100010#32 = .mov 1#1 0#1 31#5 2#5 := by decide
theorem test_decode_add_imm_1 :
    decode 0b10010001000000000000011111100010#32 = .add 1#1 0#1 0#1 1#12 31#5 2#5 := by decide
theorem test_decode_unknown_register_load :
    decode 0b10111001010000000000000000100000#32 = .unknown 0xB9400020#32 := by decide
theorem test_decode_bytes_little_endian :
    decodeBytes [0x41#8, 0x00#8, 0x00#8, 0x58#8, 0x07#8] =
      .ok (.ldr 0b01#2 0#1 2#19 1#5, [0x07#8]) := by rfl
theorem test_decode_bytes_truncated :
    decodeBytes [0x41#8, 0x00#8, 0x00#8] = .error .truncated := by rfl
theorem test_encode_add : encode (.add 1#1 0#1 0#1 1#12 5#5 6#5) = 0x910004A6#32 := by decide
theorem test_encode_ldr : encode (.ldr 0b01#2 0#1 0x7FFFF#19 5#5) = 0x58FFFFE5#32 := by decide
theorem test_decode_table_word :
    decodeTableWord 32 0x9100003F = some (.mov 1#1 0#1 1#5 31#5) := by decide

/-! ### Display (V-D9, V-D10, V-D11, V-D17) -/

theorem test_arg_mov : arg (decode 0x910003E2#32) = "x2, sp" := by decide
theorem test_arg_add : arg (decode 0x914003E2#32) = "x2, sp, #0x0, lsl #12" := by decide
theorem test_arg_ldr : arg (decode 0x58FFFFE5#32) = "x5, #-0x4" := by decide
theorem test_arg_ldr_31 : arg (decode 0x5800001F#32) = "xzr, #0x0" := by decide

/-! ### Single steps -/

/-- The machine after loading an image of the given words (each word's bytes in image order), or the
reset state where the load fails. -/
def boot (ws : List Word) : State :=
  match load (some (ws.flatMap bytesOfWord)) with
  | .next s => s
  | .fault _ => State.reset
  | .refused _ => State.reset

/-- The state after one step, or the state itself where there is none. -/
def after (s : State) : State :=
  match step s with
  | .next t => t
  | .fault _ => s
  | .refused _ => s

/-- V-L1. -/
theorem test_ldr_forward :
    readReg (after (boot [0x58000041#32, 0#32, 0xDEADBEEF#32])) 1#5 = 0xDEADBEEF#32 ∧
      (after (boot [0x58000041#32, 0#32, 0xDEADBEEF#32])).notifyW = some 1#5 ∧
      (after (boot [0x58000041#32, 0#32, 0xDEADBEEF#32])).pc = 0x80004#64 := by decide
/-- V-L8. -/
theorem test_ldr_below_zero :
    (after (boot [0x58800000#32])).status = .faulted
      { code := .outOfBoundsAccess, pc := 0x80000#64, word := some 0x58800000#32,
        addr := some (-0x80000), index := none } := by decide
/-- V-A3: the alias accumulates. -/
theorem test_mov_accumulates :
    readReg (after (writeReg (writeReg (boot [0x910003E2#32]) 2#5 5#32) 31#5 0x1000#32)) 2#5 =
      0x1005#32 := by decide
/-- V-A4: `rd = rn` doubles. -/
theorem test_mov_sp_sp_doubles :
    readReg (after (writeReg (boot [0x910003FF#32]) 31#5 0x1000#32)) 31#5 = 0x2000#32 := by decide
/-- V-A8. -/
theorem test_add_faults :
    (after (writeReg (boot [0x914003E2#32]) 31#5 0x1000#32)).status = .faulted
      { code := .unimplementedSemantics, pc := 0x80000#64, word := some 0x914003E2#32,
        addr := none, index := none } := by decide
/-- V-U3: a completed step clears what an earlier step notified. -/
theorem test_unknown_clears_notify :
    (after (notifyWrite (boot [0xD503201F#32]) 3#5)).notifyW = none ∧
      (after (notifyWrite (boot [0xD503201F#32]) 3#5)).pc = 0x80004#64 := by decide
/-- V-F1. -/
theorem test_step_past_the_end :
    (after (after (boot [0#32]))).status = .faulted
      { code := .outOfBoundsFetch, pc := 0x80004#64, word := none, addr := none,
        index := none } := by decide
/-- V-E3. -/
theorem test_load_five_bytes :
    load (some [0#8, 0#8, 0#8, 0#8, 0#8]) = .fault .imageLoadFailure := by rfl
/-- The placed word runs as the first instruction after reset: `ldr x1, #0` loads its own word. -/
theorem test_fetch_word_runs :
    readReg (after (State.reset.withFetchWord 32 0x58000001)) 1#5 = 0x58000001#32 := by decide

/-! ### Witnesses: a concrete state and operands for the hypotheses of each statement -/

/-- `ldr x1, #8; add x6, x5, #1; ldr x1, #-0x100000`. -/
def small : State := boot [0x58000041#32, 0x910004A6#32, 0x58800001#32]

/-- The small machine at the program counter given. -/
def smallAt (pc : Addr) : State := { small with pc := pc }

theorem small_imageLength : imageLength small = 3 := by decide

theorem smallAt_inv (pc : Addr) (h4 : pc.toNat % 4 = 0) (hl : Config.base ≤ pc.toNat)
    (hh : pc.toNat ≤ Config.base + 12) : (smallAt pc).Inv where
  image := show small.mem.isImage = true by decide
  fits := show Config.base + 4 * imageLength small < 2 ^ 64 by decide
  cache := show small.icache = build small.mem by decide
  scratchZero := show small.scratch = Vector.replicate 4 0#32 by decide
  pcAligned := h4
  pcLow := hl
  pcHigh := show pc.toNat ≤ Config.base + 4 * imageLength small by rw [small_imageLength]; exact hh
  recordPc := by
    intro r h
    rw [show (smallAt pc).status = .idle from rfl] at h
    cases h

theorem witness_DecodeOfEncode : (Instr.add 1#1 0#1 0#1 1#12 31#5 31#5).wf = true := by decide
theorem witness_LiteralOffsetSignedAndInRange :
    0xDCFFFFFF#32 &&& 0x3B000000#32 = 0x18000000#32 := by decide
theorem witness_DecodeFollowsMasksAndFields :
    (0x910007E2#32 &&& 0x5F800000#32 = 0x11000000#32) ∧
      (0xDCFFFFFF#32 &&& 0x3B000000#32 = 0x18000000#32) ∧
      (0xD10003E2#32 &&& 0x5F800000#32 ≠ 0x11000000#32 ∧
        0xD10003E2#32 &&& 0x3B000000#32 ≠ 0x18000000#32) := by decide
/-- The greatest program counter whose `pc + 4` has a 64-bit form, for the clauses about `pc`. -/
theorem witness_MovAccumulatesAndNotifies :
    (smallAt 0xFFFFFFFFFFFFFFFB#64).pc.toNat + 4 < 2 ^ 64 := by decide
theorem witness_UnknownOnlyAdvances :
    (smallAt 0xFFFFFFFFFFFFFFFB#64).pc.toNat + 4 < 2 ^ 64 := by decide
/-- The architectural branch of V-U2, alone in its image. -/
theorem witness_UnmatchedWordsStepAsNoOps :
    (boot [0x14000002#32]).Inv ∧ (boot [0x14000002#32]).status = .idle ∧
      (boot [0x14000002#32]).mem.readWord (boot [0x14000002#32]).pc.toNat = some 0x14000002#32 ∧
      0x14000002#32 &&& 0x5F800000#32 ≠ 0x11000000#32 ∧
      0x14000002#32 &&& 0x3B000000#32 ≠ 0x18000000#32 :=
  ⟨⟨by decide, by decide, by decide, by decide, by decide, by decide, by decide,
    fun r h => by rw [show (boot [0x14000002#32]).status = .idle from rfl] at h; cases h⟩,
    by decide, by decide, by decide, by decide⟩
/-- The target is the image's last word. -/
theorem witness_LdrLoadsTheWordAtItsTarget :
    small.mem.isImage = true ∧ small.pc.toNat % 4 = 0 ∧
      (Config.base : Int) ≤ literalTarget small.pc 2#19 ∧
      literalTarget small.pc 2#19 < (Config.base : Int) + 4 * (imageLength small : Int) ∧
      small.pc.toNat + 4 < 2 ^ 64 := by decide
/-- The first word past the image, and the last word below it. -/
theorem witness_LdrOutsideTheImageFaults :
    (Config.base : Int) + 4 * (imageLength small : Int) ≤ literalTarget small.pc 3#19 ∧
      literalTarget small.pc 0x7FFFF#19 < (Config.base : Int) := by decide
theorem witness_IgnoredBitsChangeNoEffect :
    small.status = .idle ∧
      (∃ t t', exec (.ldr 0#2 0#1 2#19 1#5) small = .next t ∧
        exec (.ldr 3#2 1#1 2#19 1#5) small = .next t' ∧ t.status = .idle) ∧
      (∃ t t' r, exec (.ldr 0#2 0#1 3#19 1#5) small = .next t ∧
        exec (.ldr 3#2 1#1 3#19 1#5) small = .next t' ∧ t.status = .faulted r) ∧
      (∃ t t' r, exec (.add 0#1 0#1 0#1 1#12 1#5 1#5) small = .next t ∧
        exec (.add 1#1 1#1 0#1 1#12 1#5 1#5) small = .next t' ∧ t.status = .faulted r) :=
  ⟨by decide, ⟨_, _, rfl, rfl, by decide⟩, ⟨_, _, _, rfl, rfl, rfl⟩, ⟨_, _, _, rfl, rfl, rfl⟩⟩
/-- The last word of the image, at its end. -/
theorem witness_StepRunsTheDecodedInstruction :
    (smallAt 0x80008#64).Inv ∧ (smallAt 0x80008#64).status = .idle ∧
      (smallAt 0x80008#64).mem.readByte 0x80008 = some 0x01#8 ∧
      (smallAt 0x80008#64).mem.readByte 0x80009 = some 0x00#8 ∧
      (smallAt 0x80008#64).mem.readByte 0x8000A = some 0x80#8 ∧
      (smallAt 0x80008#64).mem.readByte 0x8000B = some 0x58#8 ∧
      decodeBytes [0x01#8, 0x00#8, 0x80#8, 0x58#8] = .ok (.ldr 1#2 0#1 0x40000#19 1#5, []) :=
  ⟨smallAt_inv _ (by decide) (by decide) (by decide), by decide, by decide, by decide, by decide,
    by decide, rfl⟩
theorem witness_FetchReadsTheInstructionCache :
    (smallAt 0x80002#64).pc.toNat % 4 ≠ 0 ∧ (smallAt 0x7FFFC#64).pc.toNat < Config.base ∧
      Config.base + 4 * small.icache.length ≤ (smallAt 0x8000C#64).pc.toNat ∧
      (smallAt 0x80008#64).pc.toNat % 4 = 0 ∧ Config.base ≤ (smallAt 0x80008#64).pc.toNat ∧
      (smallAt 0x80008#64).pc.toNat < Config.base + 4 * small.icache.length := by decide
theorem witness_StepPastTheEndTakesOutOfBoundsFetch :
    (smallAt 0x8000C#64).Inv ∧ (smallAt 0x8000C#64).status = .idle ∧
      (smallAt 0x8000C#64).pc.toNat = Config.base + 4 * imageLength (smallAt 0x8000C#64) ∧
      ∃ t r, step (smallAt 0x8000C#64) = .next t ∧ t.status = .faulted r ∧
        r.code = .outOfBoundsFetch :=
  ⟨smallAt_inv _ (by decide) (by decide) (by decide), by decide, by decide, _, _, rfl, rfl, rfl⟩
/-- Each way to fail, in a state whose cache has the image's length. -/
theorem witness_FetchFailsExactlyPastTheEnd :
    small.icache.length = imageLength small ∧ (smallAt 0x80002#64).pc.toNat % 4 ≠ 0 ∧
      (smallAt 0x7FFFC#64).pc.toNat < Config.base ∧
      Config.base + 4 * imageLength (smallAt 0x8000C#64) ≤ (smallAt 0x8000C#64).pc.toNat ∧
      (smallAt 0x8000C#64).Inv ∧ ∃ r, fetch (smallAt 0x8000C#64) = .error r :=
  ⟨by decide, by decide, by decide, by decide,
    smallAt_inv _ (by decide) (by decide) (by decide), _, rfl⟩
theorem witness_FaultedStepChangesNothing :
    ∃ r, (after (smallAt 0x8000C#64)).status = .faulted r := ⟨_, rfl⟩
/-- One state for each fatal condition a step takes. -/
theorem witness_FatalConditionCommitsOnlyStatus :
    (∃ t r, (smallAt 0x80004#64).status = .idle ∧ step (smallAt 0x80004#64) = .next t ∧
      t.status = .faulted r ∧ r.code = .unimplementedSemantics) ∧
    (∃ t r, (boot [0x58000021#32]).status = .idle ∧ step (boot [0x58000021#32]) = .next t ∧
      t.status = .faulted r ∧ r.code = .outOfBoundsAccess) ∧
    (∃ t r, State.reset.status = .idle ∧ step State.reset = .next t ∧
      t.status = .faulted r ∧ r.code = .outOfBoundsFetch) :=
  ⟨⟨_, _, rfl, rfl, rfl, rfl⟩, ⟨_, _, rfl, rfl, rfl, rfl⟩, ⟨_, _, rfl, rfl, rfl, rfl⟩⟩
theorem witness_CompletedStepAddsFourToPc :
    small.Inv ∧ (∃ t, step small = .next t ∧ t.status = .idle) ∧ (smallAt 0x80004#64).Inv ∧
      ∃ t r, step (smallAt 0x80004#64) = .next t ∧ t.status = .faulted r :=
  ⟨smallAt_inv 0x80000#64 (by decide) (by decide) (by decide), ⟨_, rfl, rfl⟩,
    smallAt_inv _ (by decide) (by decide) (by decide), _, _, rfl, rfl⟩
theorem witness_NothingWritesTheImage : ∃ t, step small = .next t := ⟨_, rfl⟩
theorem witness_NotifyRecordFollowsTheInstruction :
    small.status = .idle ∧ fetch small = .ok (.ldr 1#2 0#1 2#19 1#5) ∧
      (∃ t, step small = .next t ∧ t.status = .idle) ∧
      (boot [0x910003E2#32]).status = .idle ∧
      fetch (boot [0x910003E2#32]) = .ok (.mov 1#1 0#1 31#5 2#5) ∧
      (∃ t, step (boot [0x910003E2#32]) = .next t ∧ t.status = .idle) ∧
      (boot [0#32]).status = .idle ∧ fetch (boot [0#32]) = .ok (.unknown 0#32) ∧
      ∃ t, step (boot [0#32]) = .next t ∧ t.status = .idle :=
  ⟨rfl, rfl, ⟨_, rfl, rfl⟩, rfl, rfl, ⟨_, rfl, rfl⟩, rfl, rfl, ⟨_, rfl, rfl⟩⟩
theorem witness_ChangedRegisterIsNotified :
    ∃ t, step small = .next t ∧ readReg t 1#5 ≠ readReg small 1#5 := ⟨_, rfl, by decide⟩
theorem witness_ObservationFieldsSteerNothing :
    small.status = .idle ∧ ∃ t, step small = .next t ∧ t.status = .idle :=
  ⟨rfl, _, rfl, rfl⟩
/-- The three fatal conditions of a step, each in a state with the invariant. -/
theorem witness_StepTakesTheFirstFailedCheck :
    ((smallAt 0x8000C#64).Inv ∧ ∃ t r, (smallAt 0x8000C#64).status = .idle ∧
      step (smallAt 0x8000C#64) = .next t ∧ t.status = .faulted r) ∧
    ((smallAt 0x80008#64).Inv ∧ ∃ t r, (smallAt 0x80008#64).status = .idle ∧
      step (smallAt 0x80008#64) = .next t ∧ t.status = .faulted r) ∧
    ((smallAt 0x80004#64).Inv ∧ ∃ t r, (smallAt 0x80004#64).status = .idle ∧
      step (smallAt 0x80004#64) = .next t ∧ t.status = .faulted r) :=
  ⟨⟨smallAt_inv _ (by decide) (by decide) (by decide), _, _, rfl, rfl, rfl⟩,
    ⟨smallAt_inv _ (by decide) (by decide) (by decide), _, _, rfl, rfl, rfl⟩, smallAt_inv _ (by decide) (by decide) (by decide), _, _, rfl, rfl, rfl⟩
theorem witness_LoadFailsOnBadFiles : ([0#8, 0#8, 0#8, 0#8, 0#8] : List Byte).length % 4 ≠ 0 := by
  decide
theorem witness_LoadBuildsTheMachine :
    ([0x41#8, 0x00#8, 0x00#8, 0x58#8] : List Byte).length % 4 = 0 ∧
      Config.base + ([0x41#8, 0x00#8, 0x00#8, 0x58#8] : List Byte).length < 2 ^ 64 ∧
      ([0x41#8, 0x00#8, 0x00#8, 0x58#8] : List Byte)[4 * 0]? = some 0x41#8 ∧
      ([0x41#8, 0x00#8, 0x00#8, 0x58#8] : List Byte)[4 * 0 + 1]? = some 0x00#8 ∧
      ([0x41#8, 0x00#8, 0x00#8, 0x58#8] : List Byte)[4 * 0 + 2]? = some 0x00#8 ∧
      ([0x41#8, 0x00#8, 0x00#8, 0x58#8] : List Byte)[4 * 0 + 3]? = some 0x58#8 := by decide
/-- The last entry of the cache. -/
theorem witness_CacheHoldsTheImageWords :
    small.Inv ∧ 2 < imageLength small ∧ (∃ t, step small = .next t) ∧
      ∃ s, load (some [0x41#8, 0x00#8, 0x00#8, 0x58#8]) = .next s :=
  ⟨smallAt_inv 0x80000#64 (by decide) (by decide) (by decide), by decide, ⟨_, rfl⟩, _, rfl⟩
/-- The image's last word, and an address of each kind that is not valid. -/
theorem witness_MemReadReadsImageWords :
    small.mem.isImage = true ∧ (0x80008 : Int) % 4 = 0 ∧ (Config.base : Int) ≤ 0x80008 ∧
      (0x80008 : Int) < (Config.base : Int) + 4 * (imageLength small : Int) ∧
      (0x80002 : Int) % 4 ≠ 0 ∧ (-4 : Int) < (Config.base : Int) ∧
      (Config.base : Int) + 4 * (imageLength small : Int) ≤ 0x8000C := by decide
theorem witness_PlacedWordIsTheOneThatRuns : 0x910003E2 < 2 ^ 32 := by decide
theorem witness_StepKeepsTheInvariant : small.Inv ∧ ∃ t, step small = .next t :=
  ⟨smallAt_inv 0x80000#64 (by decide) (by decide) (by decide), _, rfl⟩
theorem witness_ResetKeepsTheInvariant : (smallAt 0x80008#64).Inv :=
  smallAt_inv _ (by decide) (by decide) (by decide)
theorem witness_ReachableStatesStayInTheImage :
    Config.base + ([0x41#8, 0x00#8, 0x00#8, 0x58#8] : List Byte).length < 2 ^ 64 ∧
      ∃ s, Reachable [0x41#8, 0x00#8, 0x00#8, 0x58#8] s :=
  ⟨by decide, _, .reset (.step (.loaded rfl) rfl)⟩
/-- `n = L + 1`, the least number the statement takes. -/
theorem witness_EveryRunEndsInAFatalCondition : small.Inv ∧ imageLength small < 4 :=
  ⟨smallAt_inv 0x80000#64 (by decide) (by decide) (by decide), by decide⟩
theorem witness_FaultedUntilReset : ∃ r, (after (smallAt 0x80004#64)).status = .faulted r :=
  ⟨_, rfl⟩
theorem witness_RunsAreStraightLines :
    small.Inv ∧ ∃ t, Host.Core.run Sys2Proof.core 1 small = .next t ∧ t.status = .idle :=
  ⟨smallAt_inv 0x80000#64 (by decide) (by decide) (by decide), _, rfl, rfl⟩

end Sys2Proof.Tests
end

namespace Sys2Proof

/-! ### The word a decoded instruction holds (30_encoding.md R70) -/

/-- The two AI rows share one layout: a `mov` is an `add` whose `shift` and `imm12` are 0. -/
theorem encode_mov_eq_encode_add (sf sBit : BitVec 1) (rn rd : RegIdx) :
    encode (.mov sf sBit rn rd) = encode (.add sf sBit 0#1 0#12 rn rd) := rfl

/-- `decodeAI` keeps every field of the word, whichever of the two AI rows R65 picks. -/
theorem encode_decodeAI_eq_encode_add (w : Word) :
    encode (decodeAI w) =
      encode (.add (w.extractLsb' 31 1) (w.extractLsb' 29 1) (w.extractLsb' 22 1)
        (w.extractLsb' 10 12) (w.extractLsb' 5 5) (w.extractLsb' 0 5)) := by
  unfold decodeAI
  split
  next hmov =>
    simp only [Machine.isMovAlias, Bool.and_eq_true, beq_iff_eq] at hmov
    obtain ⟨⟨himm, hshift⟩, -⟩ := hmov
    rw [encode_mov_eq_encode_add, himm, hshift]
  next => rfl

/-- The fields of an AI word and its fixed bits (R63, R66) are the whole word. -/
theorem encode_decodeAI (w : Word) (h : isAddImmediate w = true) : encode (decodeAI w) = w := by
  simp only [isAddImmediate, Bool.and_eq_true, beq_iff_eq] at h
  obtain ⟨⟨hclass, hgroup⟩, hop⟩ := h
  calc encode (decodeAI w)
      = w.extractLsb' 31 1 ++ w.extractLsb' 30 1 ++ w.extractLsb' 29 1 ++ w.extractLsb' 26 3 ++
          w.extractLsb' 23 3 ++ w.extractLsb' 22 1 ++ w.extractLsb' 10 12 ++ w.extractLsb' 5 5 ++
          w.extractLsb' 0 5 := by
        rw [encode_decodeAI_eq_encode_add, hclass, hgroup, hop, encode]
    _ = w := by
        simp (disch := rfl) only [BitVec.extractLsb'_append_extractLsb'_eq_extractLsb',
          BitVec.extractLsb'_eq_self]

/-- The fields of an LL word and its fixed bits (R61, R66) are the whole word. -/
theorem encode_decodeLL (w : Word) (h : isLoadLiteral w = true) : encode (decodeLL w) = w := by
  simp only [isLoadLiteral, Bool.and_eq_true, beq_iff_eq] at h
  obtain ⟨⟨⟨h27, h25⟩, hclass⟩, h24⟩ := h
  calc encode (decodeLL w)
      = w.extractLsb' 30 2 ++ w.extractLsb' 28 2 ++ w.extractLsb' 27 1 ++ w.extractLsb' 26 1 ++
          w.extractLsb' 25 1 ++ w.extractLsb' 24 1 ++ w.extractLsb' 5 19 ++
          w.extractLsb' 0 5 := by
        rw [h27, h25, hclass, h24, decodeLL, encode]
    _ = w := by
        simp (disch := rfl) only [BitVec.extractLsb'_append_extractLsb'_eq_extractLsb',
          BitVec.extractLsb'_eq_self]

/-- Decoding loses no bit, the ignored ones (R121, R133) included: the fields write the word back. -/
@[simp] theorem encode_decode (w : Word) : encode (decode w) = w := by
  unfold decode
  split
  next h => exact encode_decodeAI w h
  next =>
    split
    next h => exact encode_decodeLL w h
    next => rfl

theorem decodeBytes_word (b0 b1 b2 b3 : Byte) :
    decodeBytes [b0, b1, b2, b3] = .ok (decode (wordOfBytes b0 b1 b2 b3), []) := rfl

end Sys2Proof

namespace Sys2Proof.Machine

/-! ### The bytes and words of an image (20_memory.md R40 to R44) -/

/-- An image lists whole words, so it is four bytes for each of its `L` words. -/
theorem mem_length_of_isImage (s : State) (hm : s.mem.isImage = true) :
    s.mem.length = 4 * imageLength s := by
  have h4 := ((isImage_iff s.mem).1 hm).2
  simp only [imageLength]
  omega

theorem imageLength_congr {s t : State} (h : t.mem = s.mem) : imageLength t = imageLength s := by
  rw [imageLength, imageLength, h]

/-- An address of which an image holds the byte is inside it (R41). -/
theorem readByte_image_bounds (m : Memory) (hm : m.isImage = true) (a : Nat) (b : Byte)
    (h : m.readByte a = some b) : Config.base ≤ a ∧ a < Config.base + m.length := by
  rw [((isImage_iff m).1 hm).1, readByte_ofBytes] at h
  split at h
  next => cases h
  next hlo =>
    have hlt := (List.getElem?_eq_some_iff.1 h).1
    rw [List.length_map] at hlt
    omega

theorem readWord_of_readByte (m : Memory) (a : Nat) (b0 b1 b2 b3 : Byte)
    (h0 : m.readByte a = some b0) (h1 : m.readByte (a + 1) = some b1)
    (h2 : m.readByte (a + 2) = some b2) (h3 : m.readByte (a + 3) = some b3) :
    m.readWord a = some (wordOfBytes b0 b1 b2 b3) := by
  simp only [Memory.readWord, h0, h1, h2, h3]

theorem readByte_of_readWord (m : Memory) (a : Nat) (w : Word) (h : m.readWord a = some w) :
    ∃ b, m.readByte a = some b := by
  cases hb : m.readByte a with
  | some b => exact ⟨b, rfl⟩
  | none => simp [Memory.readWord, hb] at h

/-! ### The Instruction Cache and the fetch under the invariant (10_state.md R33, R47) -/

theorem State.Inv.icache_length {s : State} (h : s.Inv) : s.icache.length = imageLength s := by
  rw [h.cache, length_build, imageLength]

/-- Entry `i` of the Instruction Cache is the decoding of the image word at `BASE + 4*i`. -/
theorem State.Inv.icache_getElem? {s : State} (h : s.Inv) (i : Nat) (hi : i < imageLength s) :
    s.icache[i]? = (s.mem.readWord (Config.base + 4 * i)).map decode := by
  rw [h.cache, build_getElem?, readWord_image s.mem h.image i hi]

theorem fetchAligned_iff (pc : Addr) :
    fetchAligned pc = true ↔ pc.toNat % 4 = 0 ∧ Config.base ≤ pc.toNat := by
  simp only [fetchAligned, Bool.and_eq_true, decide_eq_true_eq]

/-- An aligned program counter at or above BASE is the address of the entry it names. -/
theorem toNat_eq_of_fetchAligned (pc : Addr) (h : fetchAligned pc = true) :
    pc.toNat = Config.base + 4 * fetchIndex pc := by
  obtain ⟨h4, hlo⟩ := (fetchAligned_iff pc).1 h
  have hb : Config.base % 4 = 0 := by decide
  simp only [fetchIndex]
  omega

/-- A fetch that gives an instruction found it in the Instruction Cache (R47). -/
theorem fetch_ok_iff (s : State) (i : Instr) :
    fetch s = .ok i ↔ fetchAligned s.pc = true ∧ s.icache[fetchIndex s.pc]? = some i := by
  obtain ⟨j, ha, hj, hf⟩ | ⟨hn, hf⟩ := fetch_cases s
  · simp [ha, hj, hf]
  · rw [hf]
    refine ⟨nofun, fun ⟨ha, hi⟩ => ?_⟩
    have hlt := (List.getElem?_eq_some_iff.1 hi).1
    rw [ha] at hn
    exact absurd hlt (Nat.not_lt.2 (hn.resolve_left nofun))

/-- Where the fetch succeeds, the four bytes at `pc` are inside the image. -/
theorem State.Inv.pc_add_four_le {s : State} (h : s.Inv) {i : Instr} (hf : fetch s = .ok i) :
    s.pc.toNat + 4 ≤ Config.base + 4 * imageLength s := by
  obtain ⟨ha, hi⟩ := (fetch_ok_iff s i).1 hf
  have hlt := (List.getElem?_eq_some_iff.1 hi).1
  rw [h.icache_length] at hlt
  have hpc := toNat_eq_of_fetchAligned s.pc ha
  omega

/-- There the advanced program counter has its exact value (R26): no image under the invariant
reaches the top of the address space. -/
theorem State.Inv.toNat_nextPc {s : State} (h : s.Inv) {i : Instr} (hf : fetch s = .ok i) :
    (nextPc s.pc).toNat = s.pc.toNat + 4 :=
  nextPc_of_lt s.pc (by have := h.pc_add_four_le hf; have := h.fits; omega)

/-- The fetch gives the decoding of the image word at `pc`, though it reads the Instruction Cache
(92 D19). -/
theorem State.Inv.fetch_eq_decode {s : State} (h : s.Inv) {w : Word}
    (hw : s.mem.readWord s.pc.toNat = some w) : fetch s = .ok (decode w) := by
  have ha : fetchAligned s.pc = true := (fetchAligned_iff s.pc).2 ⟨h.pcAligned, h.pcLow⟩
  have hpc := toNat_eq_of_fetchAligned s.pc ha
  obtain ⟨b, hb⟩ := readByte_of_readWord _ _ _ hw
  have hlt := (readByte_image_bounds s.mem h.image _ b hb).2
  have hlen := mem_length_of_isImage s h.image
  refine (fetch_ok_iff s _).2 ⟨ha, ?_⟩
  rw [h.icache_getElem? _ (by omega), ← hpc, hw, Option.map_some]

/-! ### What a completed step commits (40_execution_engine.md R102) -/

/-- The working copy of `s` committed as `t`: the program counter advanced, scratch cleared, the
status, the Instruction Cache and the image kept, and no register changed but the notified one. -/
structure Commits (s t : State) : Prop where
  pc : t.pc = nextPc s.pc
  scratch : t.scratch = Vector.replicate 4 0#32
  status : t.status = s.status
  icache : t.icache = s.icache
  mem : t.mem = s.mem
  regs : ∀ j, t.notifyW ≠ some j → readReg t j = readReg s j

theorem commits_beginStep (s : State) : Commits s (advancePc (beginStep s)) :=
  ⟨rfl, rfl, rfl, rfl, rfl, fun _ _ => rfl⟩

theorem commits_writeReg (s : State) (i : RegIdx) (v : Word) :
    Commits s (advancePc (notifyWrite (writeReg (beginStep s) i v) i)) where
  pc := rfl
  scratch := rfl
  status := rfl
  icache := rfl
  mem := rfl
  regs j hj := by
    have hji : j ≠ i := fun e => hj (by simp [e])
    simp [readReg_writeReg, hji]

theorem commits_movBody (s : State) (rn rd : RegIdx) :
    Commits s (advancePc (movBody rn rd (beginStep s))) := by
  obtain ⟨hpc, hscratch, hstatus, hicache, hmem, hregs⟩ :=
    commits_writeReg s rd (add32 (readReg (beginStep s) rd) (readReg (beginStep s) rn))
  exact ⟨hpc, hscratch, hstatus, hicache, hmem, hregs⟩

/-- An instruction takes a fatal condition or commits. -/
theorem exec_fatal_or_commits (i : Instr) (s : State) :
    (∃ w r, exec i s = .next (takeFatal s w r)) ∨ ∃ t, exec i s = .next t ∧ Commits s t := by
  obtain ⟨_, _, rn, rd, -, h⟩ | ⟨_, _, _, _, _, _, -, h⟩ | ⟨_, _, _, rt, w, -, -, h⟩ |
    ⟨_, _, _, _, -, -, h⟩ | ⟨_, -, h⟩ := exec_cases i s
  · exact .inr ⟨_, h, commits_movBody s rn rd⟩
  · exact .inl ⟨_, _, h⟩
  · exact .inr ⟨_, h, commits_writeReg s rt w⟩
  · exact .inl ⟨_, _, h⟩
  · exact .inr ⟨_, h, commits_beginStep s⟩

/-- What a step that answers `t` did: nothing in `Faulted` (R103), a fatal condition, or the fetched
instruction to its end. -/
theorem step_next_cases {s t : State} (h : step s = .next t) :
    (∃ r, s.status = .faulted r ∧ t = s) ∨
    (∃ w r, s.status = .idle ∧ t = takeFatal s w r) ∨
    (∃ i, s.status = .idle ∧ fetch s = .ok i ∧ Commits s t) := by
  obtain ⟨r, hs, hstep⟩ | ⟨hs, -, hstep⟩ | ⟨i, hs, hf, hstep⟩ := step_cases s
  · rw [hstep] at h
    cases h
    exact .inl ⟨r, hs, rfl⟩
  · rw [hstep] at h
    cases h
    exact .inr (.inl ⟨_, _, hs, rfl⟩)
  · rw [hstep] at h
    obtain ⟨w, r, hexec⟩ | ⟨u, hexec, hu⟩ := exec_fatal_or_commits i s
    · rw [hexec] at h
      cases h
      exact .inr (.inl ⟨w, r, hs, rfl⟩)
    · rw [hexec] at h
      cases h
      exact .inr (.inr ⟨i, hs, hf, hu⟩)

/-- Every step answers a next state (70_reset_and_hazards.md R187). -/
theorem step_total (s : State) : ∃ t, step s = .next t := by
  obtain ⟨r, -, h⟩ | ⟨-, -, h⟩ | ⟨i, -, -, h⟩ := step_cases s
  · exact ⟨_, h⟩
  · exact ⟨_, h⟩
  · obtain ⟨w, r, hexec⟩ | ⟨t, hexec, -⟩ := exec_fatal_or_commits i s
    · exact ⟨_, h.trans hexec⟩
    · exact ⟨_, h.trans hexec⟩

theorem step_faulted {s : State} {r : FaultRecord} (h : s.status = .faulted r) :
    step s = .next s := by
  obtain ⟨_, -, hstep⟩ | ⟨hs, -⟩ | ⟨_, hs, -⟩ := step_cases s
  · exact hstep
  · cases h.symm.trans hs
  · cases h.symm.trans hs

theorem step_idle {s : State} {i : Instr} (hs : s.status = .idle) (hf : fetch s = .ok i) :
    step s = exec i s := by
  obtain ⟨_, hr, -⟩ | ⟨-, he, -⟩ | ⟨j, -, hj, hstep⟩ := step_cases s
  · cases hs.symm.trans hr
  · cases hf.symm.trans he
  · cases hf.symm.trans hj
    exact hstep

theorem step_fetch_error {s : State} {e : Raise} (hs : s.status = .idle)
    (hf : fetch s = .error e) : step s = .next (takeFatal s none e) := by
  obtain ⟨_, hr, -⟩ | ⟨-, he, hstep⟩ | ⟨_, -, hi, -⟩ := step_cases s
  · cases hs.symm.trans hr
  · cases hf.symm.trans he
    exact hstep
  · cases hf.symm.trans hi

/-- Nothing writes the image (20_memory.md R43). -/
theorem step_mem {s t : State} (h : step s = .next t) : t.mem = s.mem := by
  obtain ⟨_, -, rfl⟩ | ⟨_, _, -, rfl⟩ | ⟨_, -, -, hc⟩ := step_next_cases h
  · rfl
  · rfl
  · exact hc.mem

/-- Nothing writes the Instruction Cache (10_state.md R33). -/
theorem step_icache {s t : State} (h : step s = .next t) : t.icache = s.icache := by
  obtain ⟨_, -, rfl⟩ | ⟨_, _, -, rfl⟩ | ⟨_, -, -, hc⟩ := step_next_cases h
  · rfl
  · rfl
  · exact hc.icache

/-! ### The invariant of the step and of `reset` -/

/-- The fatal condition changes only `status`, and its record holds the `pc` (R158). -/
theorem State.Inv.of_takeFatal {s : State} (h : s.Inv) (w : Option Word) (r : Raise) :
    (takeFatal s w r).Inv where
  image := h.image
  fits := h.fits
  cache := h.cache
  scratchZero := h.scratchZero
  pcAligned := h.pcAligned
  pcLow := h.pcLow
  pcHigh := h.pcHigh
  recordPc := by
    intro record hr
    rw [takeFatal_status] at hr
    cases hr
    rfl

/-- An `Idle` state over the image and the Instruction Cache of a state with the invariant has it
again, where scratch is 0 and `pc` is in its range. -/
theorem State.Inv.of_idle {s t : State} (h : s.Inv) (hmem : t.mem = s.mem)
    (hcache : t.icache = s.icache) (hscratch : t.scratch = Vector.replicate 4 0#32)
    (hidle : t.status = .idle) (haligned : t.pc.toNat % 4 = 0) (hlow : Config.base ≤ t.pc.toNat)
    (hhigh : t.pc.toNat ≤ Config.base + 4 * imageLength s) : t.Inv where
  image := hmem ▸ h.image
  fits := imageLength_congr hmem ▸ h.fits
  cache := by rw [hcache, hmem, h.cache]
  scratchZero := hscratch
  pcAligned := haligned
  pcLow := hlow
  pcHigh := imageLength_congr hmem ▸ hhigh
  recordPc := by
    intro r hr
    rw [hidle] at hr
    cases hr

theorem State.Inv.of_commits {s t : State} (h : s.Inv) (hs : s.status = .idle) {i : Instr}
    (hf : fetch s = .ok i) (hc : Commits s t) : t.Inv := by
  have hpc : t.pc.toNat = s.pc.toNat + 4 := by rw [hc.pc, h.toNat_nextPc hf]
  have hle := h.pc_add_four_le hf
  have h4 := h.pcAligned
  have hlow := h.pcLow
  exact h.of_idle hc.mem hc.icache hc.scratch (hc.status.trans hs) (by omega) (by omega) (by omega)

/-- Settles O37: a step in `Faulted` keeps the state, a fatal condition changes only `status`, and a
completed step moves `pc` past a word that the fetch found in the image. -/
theorem stepKeepsTheInvariant : Obligations.StepKeepsTheInvariant := by
  intro s t h hstep
  obtain ⟨_, -, rfl⟩ | ⟨w, r, -, rfl⟩ | ⟨i, hs, hf, hc⟩ := step_next_cases hstep
  · exact h
  · exact h.of_takeFatal w r
  · exact h.of_commits hs hf hc

/-- Settles O38: `reset` puts `pc` at BASE over the same image. -/
theorem resetKeepsTheInvariant : Obligations.ResetKeepsTheInvariant := by
  intro s h
  have hpc := toNat_resetMachine_pc s
  exact h.of_idle rfl rfl rfl rfl (by rw [hpc]; decide) hpc.ge (hpc ▸ Nat.le_add_right _ _)

/-! ### Program counter, notify record and registers after a step -/

/-- Settles O20: the three things a step can do. -/
theorem completedStepAddsFourToPc : Obligations.CompletedStepAddsFourToPc := by
  intro s t h hstep
  obtain ⟨r, hs, rfl⟩ | ⟨w, r, -, rfl⟩ | ⟨i, hs, hf, hc⟩ := step_next_cases hstep
  · exact ⟨fun ht => (by cases hs.symm.trans ht), fun _ => rfl⟩
  · exact ⟨nofun, fun _ => rfl⟩
  · exact ⟨fun _ => by rw [hc.pc, h.toNat_nextPc hf], fun hn => absurd (hc.status.trans hs) hn⟩

/-- Settles O23: only a completed step changes a register, and then only the notified one. -/
theorem changedRegisterIsNotified : Obligations.ChangedRegisterIsNotified := by
  intro s t j hstep hne
  obtain ⟨_, -, rfl⟩ | ⟨w, r, -, rfl⟩ | ⟨i, hs, -, hc⟩ := step_next_cases hstep
  · exact absurd rfl hne
  · exact absurd rfl hne
  · exact ⟨hc.status.trans hs, not_not.1 fun hn => hne (hc.regs j hn)⟩

/-- Settles O22, by what each instruction can do; `add` and a failed `ldr` leave the machine
`Faulted`. -/
theorem notifyRecordFollowsTheInstruction : Obligations.NotifyRecordFollowsTheInstruction := by
  refine ⟨fun s => ⟨rfl, rfl⟩, fun s t i hs hf hstep ht => ⟨?_, ?_⟩⟩
  · obtain ⟨r, hr, -⟩ | ⟨w, r, -, rfl⟩ | ⟨_, -, -, hc⟩ := step_next_cases hstep
    · cases hs.symm.trans hr
    · cases ht
    · intro k
      simp [hc.scratch]
  · rw [step_idle hs hf] at hstep
    obtain ⟨_, _, rn, rd, rfl, h⟩ | ⟨_, _, _, _, _, _, rfl, h⟩ | ⟨_, _, _, rt, w, rfl, -, h⟩ |
      ⟨_, _, _, _, rfl, -, h⟩ | ⟨_, rfl, h⟩ := exec_cases i s <;> cases h.symm.trans hstep
    · exact ⟨rfl, rfl⟩
    · cases ht
    · exact ⟨rfl, rfl⟩
    · cases ht
    · exact ⟨rfl, rfl⟩

/-! ### The fields that steer nothing (R36) -/

/-- `s` with other observation fields: the notify record and scratch. -/
def withObservation (s : State) (nw nr : Option RegIdx) (sc : Vector Word 4) : State :=
  { s with notifyW := nw, notifyR := nr, scratch := sc }

/-- The instruction's own effect on the working copy: what `exec` hands to the end of the step. -/
def execBody : Instr → State → Except Raise State
  | .mov _ _ rn rd, u => .ok (movBody rn rd u)
  | .add _ _ _ _ _ _, _ => .error addRaise
  | .ldr _ _ imm19 rt, u => ldrBody imm19 rt u
  | .unknown _, u => .ok u

theorem exec_eq_finishStep (i : Instr) (s : State) :
    exec i s = finishStep s (encode i) (execBody i (beginStep s)) := by
  cases i <;> rfl

section Observation

variable (s : State) (nw nr : Option RegIdx) (sc : Vector Word 4)

/-- The step clears the observation fields before anything reads them (R102). -/
theorem beginStep_withObservation : beginStep (withObservation s nw nr sc) = beginStep s := rfl

theorem fetch_withObservation : fetch (withObservation s nw nr sc) = fetch s := rfl

/-- The working copy is the same, so the two ends are: the same commit, or the same record on the two
states from before. -/
theorem exec_withObservation (i : Instr) :
    (∃ t, exec i s = .next t ∧ exec i (withObservation s nw nr sc) = .next t) ∨
    (∃ w r, exec i s = .next (takeFatal s w r) ∧
      exec i (withObservation s nw nr sc) = .next (takeFatal (withObservation s nw nr sc) w r)) := by
  simp only [exec_eq_finishStep, beginStep_withObservation]
  cases execBody i (beginStep s) with
  | ok u => exact .inl ⟨_, rfl, rfl⟩
  | error r => exact .inr ⟨_, r, rfl, rfl⟩

end Observation

/-- Settles O24: the fetch does not read the observation fields and the step clears them. -/
theorem observationFieldsSteerNothing : Obligations.ObservationFieldsSteerNothing := by
  intro s t nw nr sc hs hstep
  change ∃ t', step (withObservation s nw nr sc) = .next t' ∧ _
  have hs' : (withObservation s nw nr sc).status = .idle := hs
  have hfetch := fetch_withObservation s nw nr sc
  cases hf : fetch s with
  | error e =>
    cases (step_fetch_error hs hf).symm.trans hstep
    exact ⟨_, step_fetch_error hs' (hfetch.trans hf), rfl, nofun⟩
  | ok i =>
    rw [step_idle hs hf] at hstep
    rw [step_idle hs' (hfetch.trans hf)]
    obtain ⟨u, hu, hu'⟩ | ⟨w, r, hu, hu'⟩ := exec_withObservation s nw nr sc i
    · cases hu.symm.trans hstep
      exact ⟨_, hu', rfl, fun _ => rfl⟩
    · cases hu.symm.trans hstep
      exact ⟨_, hu', rfl, nofun⟩

/-! ### The Instruction Cache and the listing (R33, R35) -/

/-- A load that builds a machine leaves the reset state over the laid-out bytes (20_memory.md R55,
70_reset_and_hazards.md R182). -/
theorem load_next {image : Option (List Byte)} {s : State} (h : load image = .next s) :
    ∃ bytes, image = some bytes ∧ bytes.length % 4 = 0 ∧
      s = { State.reset with
            mem := Memory.ofBytes Config.base bytes
            icache := build (Memory.ofBytes Config.base bytes) } := by
  cases image with
  | none => cases h
  | some bytes =>
    simp only [load] at h
    split at h
    next h4 =>
      split at h
      next => cases h; exact ⟨bytes, rfl, h4, rfl⟩
      next => cases h
    next => cases h

/-- Settles O32: the loader builds the cache from the image, nothing changes it, and the encoder writes
the image's words back. -/
theorem cacheHoldsTheImageWords : Obligations.CacheHoldsTheImageWords := by
  refine ⟨?_, fun s t => step_icache, fun _ => rfl, fun s h => ⟨h.icache_length, ?_⟩⟩
  · intro image s hload
    obtain ⟨bytes, -, -, rfl⟩ := load_next hload
    rfl
  · intro i hi
    have hlt : i < (imageWords s.mem).length := by rw [length_imageWords]; exact hi
    have hw : s.mem.readWord (Config.base + 4 * i) = some (imageWords s.mem)[i] := by
      rw [readWord_image s.mem h.image i hi, List.getElem?_eq_getElem hlt]
    refine ⟨decode (imageWords s.mem)[i], ?_, ?_⟩
    · rw [h.icache_getElem? i hi, hw, Option.map_some]
    · rw [hw, encode_decode]

theorem listingFrom_getElem? (a : Nat) (is : List Instr) (i : Nat) :
    (listingFrom a is)[i]? = (is[i]?).map fun ins =>
      { address := a + 4 * i, word := encode ins, mnemonic := mnemonic ins, arg := arg ins } := by
  induction is generalizing a i with
  | nil => rfl
  | cons ins is ih =>
    cases i with
    | zero => rfl
    | succ i =>
      simp only [listingFrom, List.getElem?_cons_succ, ih]
      rw [show a + 4 + 4 * i = a + 4 * (i + 1) by omega]

/-- Settles O34: the listing is laid out from BASE. -/
theorem listingShowsTheCache : Obligations.ListingShowsTheCache :=
  fun s i => listingFrom_getElem? Config.base s.icache i

/-- Settles O14: the fetch gives the decoding of the bytes at `pc`. -/
theorem stepRunsTheDecodedInstruction : Obligations.StepRunsTheDecodedInstruction := by
  intro s b0 b1 b2 b3 i h hs h0 h1 h2 h3 hd
  rw [decodeBytes_word] at hd
  cases hd
  exact step_idle hs (h.fetch_eq_decode (readWord_of_readByte _ _ _ _ _ _ h0 h1 h2 h3))

/-! ### The reset state, reachable states and runs -/

/-- Settles O29. -/
theorem resetStateValues : Obligations.ResetStateValues := by
  refine ⟨toNat_reset_pc, fun j => ?_, fun k => ?_, rfl, rfl, rfl⟩
  · simp [readReg, State.reset]
  · simp [State.reset]

/-- The reset state over any whole-word image below the top of the address space has the invariant. -/
theorem inv_of_image (bytes : List Byte) (h4 : bytes.length % 4 = 0)
    (hfits : Config.base + bytes.length < 2 ^ 64) :
    State.Inv { State.reset with
      mem := Memory.ofBytes Config.base bytes
      icache := build (Memory.ofBytes Config.base bytes) } where
  image := ofBytes_isImage bytes h4
  fits := by
    simp only [imageLength, length_ofBytes]
    omega
  cache := rfl
  scratchZero := rfl
  pcAligned := by rw [toNat_reset_pc]; decide
  pcLow := by rw [toNat_reset_pc]
  pcHigh := by rw [toNat_reset_pc]; exact Nat.le_add_right _ _
  recordPc := nofun

/-- Settles O36: `State.reset` is the machine over the empty image. -/
theorem invariantHoldsAtReset : Obligations.InvariantHoldsAtReset :=
  inv_of_image [] rfl (by decide)

/-- The induction over the host's verbs: the invariant and the loaded image. -/
theorem Reachable.inv_and_mem {image : List Byte} {s : State}
    (hfits : Config.base + image.length < 2 ^ 64) (h : Reachable image s) :
    s.Inv ∧ s.mem = Memory.ofBytes Config.base image := by
  induction h with
  | loaded hload =>
    obtain ⟨bytes, hbytes, h4, rfl⟩ := load_next hload
    cases hbytes
    exact ⟨inv_of_image image h4 hfits, rfl⟩
  | reset _ ih =>
    obtain ⟨hinv, hmem⟩ := ih
    exact ⟨resetKeepsTheInvariant _ hinv, hmem⟩
  | step _ hstep ih =>
    obtain ⟨hinv, hmem⟩ := ih
    exact ⟨stepKeepsTheInvariant _ _ hinv hstep, (step_mem hstep).trans hmem⟩

/-- Settles O39: the bounds on `pc` are the invariant's, over the bytes of the loaded image. -/
theorem reachableStatesStayInTheImage : Obligations.ReachableStatesStayInTheImage := by
  intro image s hfits h
  obtain ⟨hinv, hmem⟩ := h.inv_and_mem hfits
  have hlen := mem_length_of_isImage s hinv.image
  rw [hmem, length_ofBytes] at hlen
  exact ⟨hinv, hmem, hinv.pcAligned, hinv.pcLow, hlen ▸ hinv.pcHigh⟩

/-- A run from `Faulted` stays where it is (R103). -/
theorem run_faulted (n : Nat) {s : State} {r : FaultRecord} (h : s.status = .faulted r) :
    Host.Core.run Sys2Proof.core n s = .next s := by
  induction n with
  | zero => rfl
  | succ n ih => rw [run_succ n (step_faulted h), ih]

/-- Settles O42, by induction on the number of steps: a run that ends in an `Idle` state completed its
first one. -/
theorem runsAreStraightLines : Obligations.RunsAreStraightLines := by
  intro s t n h hrun ht
  induction n generalizing s with
  | zero => cases hrun; rfl
  | succ n ih =>
    obtain ⟨u, hstep⟩ := step_total s
    rw [run_succ n hstep] at hrun
    have hu : u.status = .idle := by
      cases hr : u.status with
      | idle => rfl
      | faulted r =>
        rw [run_faulted n hr] at hrun
        cases hrun
        exact hr.symm.trans ht
    have hpc := (completedStepAddsFourToPc s u h hstep).1 hu
    have hrest := ih u (stepKeepsTheInvariant s u h hstep) hrun
    omega

end Sys2Proof.Machine

namespace Sys2Proof

/-! ### A word and its four bytes (20_memory.md R44) -/

/-- The bytes of a word, least significant first, make the word again. -/
theorem wordOfBytes_extractLsb' (w : Word) :
    wordOfBytes (w.extractLsb' 0 8) (w.extractLsb' 8 8) (w.extractLsb' 16 8)
      (w.extractLsb' 24 8) = w := by
  simp (disch := rfl) only [wordOfBytes, BitVec.extractLsb'_append_extractLsb'_eq_extractLsb',
    BitVec.extractLsb'_eq_self]

/-- Decoding the bytes that store a word is decoding the word (R60, R66). -/
theorem decodeBytes_bytesOfWord (w : Word) : decodeBytes (bytesOfWord w) = .ok (decode w, []) := by
  rw [bytesOfWord, decodeBytes_word, wordOfBytes_extractLsb']

theorem decodeTableWord_of_lt (w : Nat) (hw : w < 2 ^ 32) :
    decodeTableWord 32 w = some (decode (BitVec.ofNat 32 w)) := by
  rw [decodeTableWord, Nat.mod_eq_of_lt hw, decodeBytes_bytesOfWord]

end Sys2Proof

namespace Sys2Proof.Machine

/-! ### The fetch and the cache's end (20_memory.md R47) -/

/-- For a fetchable program counter, an index inside a cache of `n` entries is an address below
`BASE + 4*n`. -/
theorem fetchIndex_lt_iff {pc : Addr} (h : fetchAligned pc = true) (n : Nat) :
    fetchIndex pc < n ↔ pc.toNat < Config.base + 4 * n := by
  have hpc := toNat_eq_of_fetchAligned pc h
  omega

/-- Settles O15: the two results of a fetch, each with the bounds on `pc` that its index stands for. -/
theorem fetchReadsTheInstructionCache : Obligations.FetchReadsTheInstructionCache := by
  intro s
  refine ⟨fun hbad => ?_, fun h4 hlo hhi => ?_⟩
  · obtain ⟨i, ha, hi, -⟩ | ⟨-, hf⟩ := fetch_cases s
    · obtain ⟨h4, hlo⟩ := (fetchAligned_iff s.pc).1 ha
      have hhi := (fetchIndex_lt_iff ha _).1 (List.getElem?_eq_some_iff.1 hi).1
      omega
    · exact hf
  · have ha : fetchAligned s.pc = true := (fetchAligned_iff s.pc).2 ⟨h4, hlo⟩
    have hi := List.getElem?_eq_getElem ((fetchIndex_lt_iff ha s.icache.length).2 hhi)
    exact ⟨_, hi, (fetch_ok_iff s _).2 ⟨ha, hi⟩⟩

/-! ### Data reads (20_memory.md R41 to R43) -/

/-- A valid address is that of the image word it indexes. -/
theorem validAddr_word {s : State} {a : Int} (h : validAddr s a = true) :
    a.toNat = Config.base + 4 * ((a - Config.base) / 4).toNat ∧
      ((a - Config.base) / 4).toNat < imageLength s := by
  obtain ⟨h4, hlo, hhi⟩ := (validAddr_iff s a).1 h
  have hb : Config.base % 4 = 0 := by decide
  omega

/-- Settles O33: a valid address reads the image word it indexes, any other raises. -/
theorem memReadReadsImageWords : Obligations.MemReadReadsImageWords := by
  intro s a hm
  refine ⟨fun h4 hlo hhi => ?_, fun hbad => ?_⟩
  · have ha : validAddr s a = true := (validAddr_iff s a).2 ⟨h4, hlo, hhi⟩
    obtain ⟨hat, hidx⟩ := validAddr_word ha
    obtain ⟨w, hw, hread⟩ := memRead_image s hm a ha
    rw [hat, readWord_image s.mem hm _ hidx] at hw
    exact ⟨w, hw, hread⟩
  · have ha : validAddr s a = false := by
      rw [Bool.eq_false_iff, ne_eq, validAddr_iff]
      omega
    exact memRead_invalid s a ha

/-- Settles O21: a step's next state has the memory of the state before it, so every byte of it. -/
theorem nothingWritesTheImage : Obligations.NothingWritesTheImage := by
  refine ⟨fun s t hstep => ?_, resetMachine_mem⟩
  have hmem := step_mem hstep
  exact ⟨hmem, fun a => by rw [hmem]⟩

/-! ### A word placed where the machine fetches (log entry 3) -/

/-- The placed element stands at its position, whether the list reached that far or was lengthened. -/
theorem placeAt_getElem? {α : Type} (fill x : α) (n : Nat) (l : List α) :
    (placeAt fill x n l)[n]? = some x := by
  induction n generalizing l with
  | zero => cases l <;> rfl
  | succ n ih => cases l <;> exact ih _

theorem fetchAligned_fetchablePc (pc : Addr) : fetchAligned (fetchablePc pc) = true := by
  unfold fetchablePc
  split
  next h => exact h
  next => decide

theorem fetch_loadFetchWord (s : State) (w : Word) :
    fetch (loadFetchWord s w) = .ok (decode w) :=
  (fetch_ok_iff _ _).2 ⟨fetchAligned_fetchablePc s.pc, placeAt_getElem? _ _ _ _⟩

theorem withFetchWord_of_lt (s : State) (w : Nat) (hw : w < 2 ^ 32) :
    s.withFetchWord 32 w = loadFetchWord s (BitVec.ofNat 32 w) := by
  rw [State.withFetchWord, Nat.mod_eq_of_lt hw]

/-- Settles O35: the placing leaves an `Idle` machine whose fetch gives the decoding of the word. -/
theorem placedWordIsTheOneThatRuns : Obligations.PlacedWordIsTheOneThatRuns := by
  intro s w hw
  refine ⟨decodeTableWord_of_lt w hw, ?_⟩
  rw [withFetchWord_of_lt s w hw]
  exact step_idle rfl (fetch_loadFetchWord s _)

end Sys2Proof.Machine

namespace Sys2Proof

/-! ### A word as the fields of its format (30_encoding.md R61, R63) -/

/-- Two concatenations with the same cut are equal field by field. -/
theorem append_inj_iff {m n : Nat} (a c : BitVec m) (b d : BitVec n) :
    a ++ b = c ++ d ↔ a = c ∧ b = d := by
  refine ⟨fun h => ⟨?_, ?_⟩, fun ⟨hac, hbd⟩ => by rw [hac, hbd]⟩
  · simpa only [BitVec.extractLsb'_append_eq_left] using congrArg (BitVec.extractLsb' n m) h
  · simpa only [BitVec.extractLsb'_append_eq_right] using congrArg (BitVec.extractLsb' 0 n) h

/-- The cuts of format AI lose no bit. -/
theorem append_aiFields (w : Word) :
    w.extractLsb' 31 1 ++ w.extractLsb' 30 1 ++ w.extractLsb' 29 1 ++ w.extractLsb' 26 3 ++
      w.extractLsb' 23 3 ++ w.extractLsb' 22 1 ++ w.extractLsb' 10 12 ++ w.extractLsb' 5 5 ++
      w.extractLsb' 0 5 = w := by
  simp (disch := rfl) only [BitVec.extractLsb'_append_extractLsb'_eq_extractLsb',
    BitVec.extractLsb'_eq_self]

/-- The cuts of format LL lose no bit. -/
theorem append_llFields (w : Word) :
    w.extractLsb' 30 2 ++ w.extractLsb' 28 2 ++ w.extractLsb' 27 1 ++ w.extractLsb' 26 1 ++
      w.extractLsb' 25 1 ++ w.extractLsb' 24 1 ++ w.extractLsb' 5 19 ++ w.extractLsb' 0 5 = w := by
  simp (disch := rfl) only [BitVec.extractLsb'_append_extractLsb'_eq_extractLsb',
    BitVec.extractLsb'_eq_self]

/-- Reading the fields of format AI undoes writing them. The `change` shows `append_inj_iff` the width
32 as the sum of the fields' widths. -/
theorem eq_aiFields_iff (w : Word) (sf op sBit : BitVec 1) (hi lo : BitVec 3) (shift : BitVec 1)
    (imm12 : BitVec 12) (rn rd : RegIdx) :
    w = sf ++ op ++ sBit ++ hi ++ lo ++ shift ++ imm12 ++ rn ++ rd ↔
      w.extractLsb' 31 1 = sf ∧ w.extractLsb' 30 1 = op ∧ w.extractLsb' 29 1 = sBit ∧
      w.extractLsb' 26 3 = hi ∧ w.extractLsb' 23 3 = lo ∧ w.extractLsb' 22 1 = shift ∧
      w.extractLsb' 10 12 = imm12 ∧ w.extractLsb' 5 5 = rn ∧ w.extractLsb' 0 5 = rd := by
  conv_lhs => lhs; rw [← append_aiFields w]
  change @Eq (BitVec (1 + 1 + 1 + 3 + 3 + 1 + 12 + 5 + 5)) _ _ ↔ _
  simp only [append_inj_iff, and_assoc]

/-- Reading the fields of format LL undoes writing them. -/
theorem eq_llFields_iff (w : Word) (opc cls : BitVec 2) (b27 v b25 b24 : BitVec 1)
    (imm19 : BitVec 19) (rt : RegIdx) :
    w = opc ++ cls ++ b27 ++ v ++ b25 ++ b24 ++ imm19 ++ rt ↔
      w.extractLsb' 30 2 = opc ∧ w.extractLsb' 28 2 = cls ∧ w.extractLsb' 27 1 = b27 ∧
      w.extractLsb' 26 1 = v ∧ w.extractLsb' 25 1 = b25 ∧ w.extractLsb' 24 1 = b24 ∧
      w.extractLsb' 5 19 = imm19 ∧ w.extractLsb' 0 5 = rt := by
  conv_lhs => lhs; rw [← append_llFields w]
  change @Eq (BitVec (2 + 2 + 1 + 1 + 1 + 1 + 19 + 5)) _ _ ↔ _
  simp only [append_inj_iff, and_assoc]

/-- A field as arithmetic on the word. -/
theorem toNat_field (w : Word) (start len : Nat) :
    (w.extractLsb' start len).toNat = w.toNat / 2 ^ start % 2 ^ len := by
  rw [BitVec.extractLsb'_toNat, Nat.shiftRight_eq_div_pow]

/-! ### The decode tests as masks (30_encoding.md R66) -/

/-- The AI mask keeps the class, group and `op` fields and zeroes every other one. -/
theorem isAddImmediate_iff_mask (w : Word) :
    isAddImmediate w = true ↔ w &&& 0x5F800000#32 = 0x11000000#32 := by
  have hone (x : BitVec 1) : x &&& 1#1 = x := BitVec.and_allOnes
  have hseven (x : BitVec 3) : x &&& 7#3 = x := BitVec.and_allOnes
  refine .trans ?_ (eq_aiFields_iff (w &&& 0x5F800000#32) 0#1 0#1 0#1 4#3 2#3 0#1 0#12 0#5 0#5).symm
  simp [isAddImmediate, BitVec.extractLsb'_and, hone, hseven, and_comm]

/-- The LL mask keeps the class field and the bits 27, 25 and 24, and zeroes every other field. -/
theorem isLoadLiteral_iff_mask (w : Word) :
    isLoadLiteral w = true ↔ w &&& 0x3B000000#32 = 0x18000000#32 := by
  have hone (x : BitVec 1) : x &&& 1#1 = x := BitVec.and_allOnes
  have hthree (x : BitVec 2) : x &&& 3#2 = x := BitVec.and_allOnes
  refine .trans ?_ (eq_llFields_iff (w &&& 0x3B000000#32) 0#2 1#2 1#1 0#1 0#1 0#1 0#19 0#5).symm
  simp [isLoadLiteral, BitVec.extractLsb'_and, hone, hthree, and_comm, and_assoc]

/-- Bit 24 tells the two formats apart: set in the AI group, clear in every LL word. -/
theorem isLoadLiteral_eq_false_of_isAddImmediate {w : Word} (h : isAddImmediate w = true) :
    isLoadLiteral w = false := by
  rw [Bool.eq_false_iff]
  intro hll
  simp only [isAddImmediate, isLoadLiteral, Bool.and_eq_true, beq_iff_eq] at h hll
  obtain ⟨⟨-, hgroup⟩, -⟩ := h
  obtain ⟨-, hbit⟩ := hll
  have hset : w.getLsbD 24 = true := by simpa using congrArg (BitVec.getLsbD · 1) hgroup
  have hclear : w.getLsbD 24 = false := by simpa using congrArg (BitVec.getLsbD · 0) hbit
  exact Bool.noConfusion (hset.symm.trans hclear)

theorem not_maskAI_and_maskLL (w : Word) :
    ¬ (w &&& 0x5F800000#32 = 0x11000000#32 ∧ w &&& 0x3B000000#32 = 0x18000000#32) := by
  rintro ⟨hai, hll⟩
  rw [← isAddImmediate_iff_mask] at hai
  rw [← isLoadLiteral_iff_mask, isLoadLiteral_eq_false_of_isAddImmediate hai] at hll
  cases hll

/-! ### The four cases of `decode` (30_encoding.md R65 to R67) -/

theorem decode_of_isAddImmediate {w : Word} (h : isAddImmediate w = true) :
    decode w = decodeAI w := if_pos h

theorem decode_of_isLoadLiteral {w : Word} (h : isLoadLiteral w = true) :
    decode w = decodeLL w := by
  have hai : ¬ isAddImmediate w = true := fun hai => by
    rw [isLoadLiteral_eq_false_of_isAddImmediate hai] at h
    cases h
  rw [decode, if_neg hai, if_pos h]

theorem decode_of_unmatched {w : Word} (hai : w &&& 0x5F800000#32 ≠ 0x11000000#32)
    (hll : w &&& 0x3B000000#32 ≠ 0x18000000#32) : decode w = .unknown w := by
  rw [decode, if_neg (hai ∘ (isAddImmediate_iff_mask w).1),
    if_neg (hll ∘ (isLoadLiteral_iff_mask w).1)]

/-- Every word is an AI word, an LL word or neither. -/
theorem decode_cases (w : Word) :
    (isAddImmediate w = true ∧ decode w = decodeAI w) ∨
    (isLoadLiteral w = true ∧ decode w = decodeLL w) ∨
    (w &&& 0x5F800000#32 ≠ 0x11000000#32 ∧ w &&& 0x3B000000#32 ≠ 0x18000000#32 ∧
      decode w = .unknown w) := by
  by_cases hai : w &&& 0x5F800000#32 = 0x11000000#32
  · have h := (isAddImmediate_iff_mask w).2 hai
    exact .inl ⟨h, decode_of_isAddImmediate h⟩
  · by_cases hll : w &&& 0x3B000000#32 = 0x18000000#32
    · have h := (isLoadLiteral_iff_mask w).2 hll
      exact .inr (.inl ⟨h, decode_of_isLoadLiteral h⟩)
    · exact .inr (.inr ⟨hai, hll, decode_of_unmatched hai hll⟩)

/-- The test of R65 on the values of the fields. -/
theorem isMovAlias_iff (shift : BitVec 1) (imm12 : BitVec 12) (rn rd : RegIdx) :
    Machine.isMovAlias shift imm12 rn rd = true ↔
      imm12.toNat = 0 ∧ shift.toNat = 0 ∧ (rn.toNat = 31 ∨ rd.toNat = 31) := by
  simp [Machine.isMovAlias, BitVec.toNat_eq, and_assoc]

theorem wf_mov (sf sBit : BitVec 1) (rn rd : RegIdx) :
    (Instr.mov sf sBit rn rd).wf = Machine.isMovAlias 0#1 0#12 rn rd := rfl

theorem wf_add (sf sBit shift : BitVec 1) (imm12 : BitVec 12) (rn rd : RegIdx) :
    (Instr.add sf sBit shift imm12 rn rd).wf = !Machine.isMovAlias shift imm12 rn rd := rfl

/-- An `unknown` is well formed where its word matches neither mask (R67). -/
theorem wf_unknown_iff (w : Word) :
    (Instr.unknown w).wf = true ↔
      w &&& 0x5F800000#32 ≠ 0x11000000#32 ∧ w &&& 0x3B000000#32 ≠ 0x18000000#32 := by
  simp [Instr.wf, matchesAI, matchesLL]

/-! ### Decoding what was encoded -/

/-- The fixed bits of `encode` pass the AI test, and its operands come back; the test of R65 picks the
row. -/
theorem decode_encode_add (sf sBit shift : BitVec 1) (imm12 : BitVec 12) (rn rd : RegIdx) :
    decode (encode (.add sf sBit shift imm12 rn rd)) =
      if Machine.isMovAlias shift imm12 rn rd then .mov sf sBit rn rd
      else .add sf sBit shift imm12 rn rd := by
  obtain ⟨hsf, hop, hS, hclass, hgroup, hshift, himm, hrn, hrd⟩ :=
    (eq_aiFields_iff (encode (.add sf sBit shift imm12 rn rd)) _ _ _ _ _ _ _ _ _).1 rfl
  have hai : isAddImmediate (encode (.add sf sBit shift imm12 rn rd)) = true := by
    simp [isAddImmediate, hclass, hgroup, hop]
  rw [decode_of_isAddImmediate hai, decodeAI, hsf, hS, hshift, himm, hrn, hrd]

theorem decode_encode_ldr (opc : BitVec 2) (v : BitVec 1) (imm19 : BitVec 19) (rt : RegIdx) :
    decode (encode (.ldr opc v imm19 rt)) = .ldr opc v imm19 rt := by
  obtain ⟨hopc, hclass, h27, hv, h25, h24, himm, hrt⟩ :=
    (eq_llFields_iff (encode (.ldr opc v imm19 rt)) _ _ _ _ _ _ _ _).1 rfl
  have hll : isLoadLiteral (encode (.ldr opc v imm19 rt)) = true := by
    simp [isLoadLiteral, h27, h25, hclass, h24]
  rw [decode_of_isLoadLiteral hll, decodeLL, hopc, hv, himm, hrt]

/-- Settles O1, row by row of the opcode table: well-formedness is the condition by which `decode` picks
the row. -/
theorem decodeOfEncode : Obligations.DecodeOfEncode := by
  intro i hwf
  cases i with
  | mov sf sBit rn rd =>
    rw [wf_mov] at hwf
    rw [encode_mov_eq_encode_add, decode_encode_add, if_pos hwf]
  | add sf sBit shift imm12 rn rd =>
    rw [wf_add, Bool.not_eq_true'] at hwf
    rw [decode_encode_add, hwf]
    rfl
  | ldr opc v imm19 rt => exact decode_encode_ldr opc v imm19 rt
  | unknown w =>
    obtain ⟨hai, hll⟩ := (wf_unknown_iff w).1 hwf
    exact decode_of_unmatched hai hll

/-! ### What `decode` gives for a word -/

/-- `decode` picks the row whose condition the fields meet. -/
theorem wf_decode (w : Word) : (decode w).wf = true := by
  obtain ⟨-, hd⟩ | ⟨-, hd⟩ | ⟨hai, hll, hd⟩ := decode_cases w
  · rw [hd, decodeAI]
    split
    next hmov =>
      obtain ⟨-, -, hreg⟩ := (isMovAlias_iff _ _ _ _).1 hmov
      exact (isMovAlias_iff 0#1 0#12 _ _).2 ⟨rfl, rfl, hreg⟩
    next hmov => rw [wf_add, Bool.eq_false_iff.2 hmov, Bool.not_false]
  · rw [hd]
    rfl
  · rw [hd]
    exact (wf_unknown_iff w).2 ⟨hai, hll⟩

/-- `decode` and `encode` are inverse between the words and the well-formed instructions. -/
theorem decode_eq_iff {i : Instr} (hwf : i.wf = true) (w : Word) : decode w = i ↔ encode i = w := by
  constructor
  · rintro rfl
    exact encode_decode w
  · rintro rfl
    exact decodeOfEncode i hwf

/-- A record is one of three variants, and its word is the instruction's (R68, R70). -/
theorem record_cases (i : Instr) :
    record i = .unknown (encode i) ∨
    (∃ offset rt, record i = .loadLiteral (encode i) offset rt) ∨
    ∃ shift imm12 rn rd flag, record i = .addImmediate (encode i) shift imm12 rn rd flag := by
  cases i with
  | mov sf sBit rn rd => exact .inr (.inr ⟨_, _, _, _, _, rfl⟩)
  | add sf sBit shift imm12 rn rd => exact .inr (.inr ⟨_, _, _, _, _, rfl⟩)
  | ldr opc v imm19 rt => exact .inr (.inl ⟨_, _, rfl⟩)
  | unknown w => exact .inl rfl

/-- Settles O2: the record holds the encoded word, and encoding undoes decoding. -/
theorem encodeOfDecode : Obligations.EncodeOfDecode := by
  intro w
  have hrecord := record_cases (decode w)
  rw [encode_decode] at hrecord
  exact ⟨encode_decode w, wf_decode w, hrecord, decodeBytes_bytesOfWord w⟩

/-! ### The record's fields (30_encoding.md R61 to R63) -/

/-- The record of an AI word shows the word's own fields, whichever row R65 picks: a `mov` has its
`shift` and `imm12` at 0. -/
theorem record_decodeAI {w : Word} (h : isAddImmediate w = true) :
    record (decodeAI w) =
      .addImmediate w (w.extractLsb' 22 1) (w.extractLsb' 10 12) (w.extractLsb' 5 5)
        (w.extractLsb' 0 5)
        (Machine.isMovAlias (w.extractLsb' 22 1) (w.extractLsb' 10 12) (w.extractLsb' 5 5)
          (w.extractLsb' 0 5)) := by
  have hw := encode_decodeAI w h
  unfold decodeAI at hw ⊢
  split
  next hmov =>
    rw [if_pos hmov] at hw
    obtain ⟨himm, hshift, -⟩ := (isMovAlias_iff _ _ _ _).1 hmov
    rw [record, hw, BitVec.eq_of_toNat_eq (y := 0#12) himm,
      BitVec.eq_of_toNat_eq (y := 0#1) hshift]
  next hmov =>
    rw [if_neg hmov] at hw
    rw [record, hw]

/-- The offset is the two's-complement value of `imm19` times 4 (R62). -/
theorem literalOffset_eq (imm19 : BitVec 19) :
    Machine.literalOffset imm19 =
      4 * (if imm19.toNat < 2 ^ 18 then (imm19.toNat : Int) else (imm19.toNat : Int) - 2 ^ 19) := by
  rw [Machine.literalOffset, BitVec.toInt_eq_toNat_cond]
  split_ifs <;> omega

theorem record_decodeLL {w : Word} (h : isLoadLiteral w = true) :
    record (decodeLL w) =
      .loadLiteral w (Machine.literalOffset (w.extractLsb' 5 19)) (w.extractLsb' 0 5) := by
  have hw := encode_decodeLL w h
  rw [decodeLL] at hw ⊢
  rw [record, hw]

/-- Settles O3: each mask is one of the decode tests, and the record then shows the word's fields. -/
theorem decodeFollowsMasksAndFields : Obligations.DecodeFollowsMasksAndFields := by
  intro w
  refine ⟨not_maskAI_and_maskLL w, fun hai => ?_, fun hll => ?_, decode_of_unmatched⟩
  · have h := (isAddImmediate_iff_mask w).2 hai
    refine ⟨w.extractLsb' 22 1, w.extractLsb' 10 12, w.extractLsb' 5 5, w.extractLsb' 0 5, ?_,
      toNat_field w 22 1, toNat_field w 10 12, toNat_field w 5 5, ?_⟩
    · rw [decode_of_isAddImmediate h, record_decodeAI h]
      simp only [← isMovAlias_iff, Bool.decide_eq_true]
    · rw [toNat_field, pow_zero, Nat.div_one]
  · have h := (isLoadLiteral_iff_mask w).2 hll
    refine ⟨w.extractLsb' 0 5, ?_, ?_⟩
    · rw [decode_of_isLoadLiteral h, record_decodeLL h, literalOffset_eq, toNat_field]
    · rw [toNat_field, pow_zero, Nat.div_one]

/-- A signed 19-bit count of words reaches 1 MiB back and 1 MiB less one word forward (R62). -/
theorem literalOffset_range (imm19 : BitVec 19) :
    -0x100000 ≤ Machine.literalOffset imm19 ∧ Machine.literalOffset imm19 ≤ 0x0FFFFC := by
  have hlo : -2 ^ 18 ≤ imm19.toInt := BitVec.le_toInt imm19
  have hhi : imm19.toInt < 2 ^ 18 := BitVec.toInt_lt
  rw [Machine.literalOffset]
  omega

/-- Settles O4. The three examples are evaluated. -/
theorem literalOffsetSignedAndInRange : Obligations.LiteralOffsetSignedAndInRange := by
  refine ⟨fun w hll => ?_, fun imm19 => ?_, by decide, by decide, by decide⟩
  · exact ⟨_, _, _, _, decode_of_isLoadLiteral ((isLoadLiteral_iff_mask w).2 hll),
      toNat_field w 5 19⟩
  · obtain ⟨hlo, hhi⟩ := literalOffset_range imm19
    exact ⟨literalOffset_eq imm19, Int.mul_emod_left _ _, hlo, hhi, fun _ => rfl⟩

theorem mnemonic_decodeAI (w : Word) :
    Machine.mnemonic (decodeAI w) =
      if Machine.isMovAlias (w.extractLsb' 22 1) (w.extractLsb' 10 12) (w.extractLsb' 5 5)
        (w.extractLsb' 0 5) then "mov" else "add" := by
  unfold decodeAI
  split <;> rfl

/-- Settles O7, by the three cases of `decode`. -/
theorem mnemonicOfEveryWord : Obligations.MnemonicOfEveryWord := by
  intro w
  obtain ⟨h, hd⟩ | ⟨h, hd⟩ | ⟨hai, hll, hd⟩ := decode_cases w
  · have halias := isMovAlias_iff (w.extractLsb' 22 1) (w.extractLsb' 10 12) (w.extractLsb' 5 5)
      (w.extractLsb' 0 5)
    simp only [toNat_field, pow_zero, pow_one, Nat.div_one] at halias
    rw [hd, if_pos ((isAddImmediate_iff_mask w).1 h), ← if_congr halias rfl rfl]
    exact mnemonic_decodeAI w
  · have hll := (isLoadLiteral_iff_mask w).1 h
    rw [hd, if_neg (fun hai => not_maskAI_and_maskLL w ⟨hai, hll⟩), if_pos hll]
    rfl
  · rw [hd, if_neg hai, if_neg hll]
    rfl

end Sys2Proof

namespace Sys2Proof.Machine

/-- Settles O43: the fetch gives the decoding of the word at `pc`, an `unknown`, whose `exec` commits the
cleared working copy. -/
theorem unmatchedWordsStepAsNoOps : Obligations.UnmatchedWordsStepAsNoOps := by
  intro s w h hs hw hai hll
  have hf : fetch s = .ok (.unknown w) := by
    rw [h.fetch_eq_decode hw, decode_of_unmatched hai hll]
  refine ⟨advancePc (beginStep s), rfl, step_idle hs hf, h.toNat_nextPc hf, fun _ => rfl, rfl, rfl,
    fun k => ?_, hs, rfl, fun _ => rfl⟩
  simp

end Sys2Proof.Machine

namespace Sys2Proof

/-! ### Counting the words of each variant (30_encoding.md R76) -/

/-- The words with a property are as many as the operands that write them: `f` writes each such word
once and no other. No word is enumerated. -/
theorem card_words_eq {α : Type} (f : α → Word) (hf : f.Injective) (P : Word → Prop)
    [DecidablePred P] (hP : ∀ w, P w ↔ ∃ a, f a = w) :
    ((Finset.range (2 ^ 32)).filter fun n => P (BitVec.ofNat 32 n)).card = Nat.card α := by
  have hrange : (↑((Finset.range (2 ^ 32)).filter fun n => P (BitVec.ofNat 32 n)) : Set Nat) =
      Set.range (BitVec.toNat ∘ f) := by
    ext n
    rw [Finset.mem_coe, Finset.mem_filter, Finset.mem_range, hP, Set.mem_range]
    constructor
    · rintro ⟨hn, a, ha⟩
      exact ⟨a, by rw [Function.comp_apply, ha, BitVec.toNat_ofNat, Nat.mod_eq_of_lt hn]⟩
    · rintro ⟨a, rfl⟩
      exact ⟨(f a).isLt, a, by rw [Function.comp_apply, BitVec.ofNat_toNat, BitVec.setWidth_eq]⟩
  rw [← Set.ncard_coe_finset, hrange,
    Set.ncard_range_of_injective (BitVec.toNat_injective.comp hf)]

theorem card_bitVec (n : Nat) : Nat.card (BitVec n) = 2 ^ n := by
  rw [Nat.card_congr BitVec.equivFin.toEquiv, Nat.card_fin]

/-- The word of an AI instruction from all its operands. -/
def aiWord : BitVec 1 × BitVec 1 × BitVec 1 × BitVec 12 × RegIdx × RegIdx → Word
  | (sf, sBit, shift, imm12, rn, rd) => encode (.add sf sBit shift imm12 rn rd)

/-- The operand fields of an AI word. -/
def aiOperands (w : Word) : BitVec 1 × BitVec 1 × BitVec 1 × BitVec 12 × RegIdx × RegIdx :=
  (w.extractLsb' 31 1, w.extractLsb' 29 1, w.extractLsb' 22 1, w.extractLsb' 10 12,
    w.extractLsb' 5 5, w.extractLsb' 0 5)

theorem aiOperands_aiWord : Function.LeftInverse aiOperands aiWord := by
  rintro ⟨sf, sBit, shift, imm12, rn, rd⟩
  obtain ⟨hsf, -, hS, -, -, hshift, himm, hrn, hrd⟩ :=
    (eq_aiFields_iff (aiWord (sf, sBit, shift, imm12, rn, rd)) _ _ _ _ _ _ _ _ _).1 rfl
  rw [aiOperands, hsf, hS, hshift, himm, hrn, hrd]

theorem card_aiOperands :
    Nat.card (BitVec 1 × BitVec 1 × BitVec 1 × BitVec 12 × RegIdx × RegIdx) = 2 ^ 25 := by
  simp only [Nat.card_prod, card_bitVec, ← pow_add, Nat.reduceAdd]

theorem variant_decode_eq_addImmediate_iff (w : Word) :
    variant (decode w) = .addImmediate ↔ ∃ a, aiWord a = w := by
  constructor
  · intro h
    obtain ⟨hai, -⟩ | ⟨-, hd⟩ | ⟨-, -, hd⟩ := decode_cases w
    · exact ⟨aiOperands w, (encode_decodeAI_eq_encode_add w).symm.trans (encode_decodeAI w hai)⟩
    · rw [hd] at h
      cases h
    · rw [hd] at h
      cases h
  · rintro ⟨⟨sf, sBit, shift, imm12, rn, rd⟩, rfl⟩
    rw [aiWord, decode_encode_add]
    split <;> rfl

/-- The word of an `ldr` from all its operands. -/
def ldrWord : BitVec 2 × BitVec 1 × BitVec 19 × RegIdx → Word
  | (opc, v, imm19, rt) => encode (.ldr opc v imm19 rt)

theorem ldrWord_injective : ldrWord.Injective := by
  rintro ⟨opc, v, imm19, rt⟩ ⟨opc', v', imm19', rt'⟩ h
  have hdecode := congrArg decode h
  simp only [ldrWord, decode_encode_ldr, Instr.ldr.injEq] at hdecode
  obtain ⟨rfl, rfl, rfl, rfl⟩ := hdecode
  rfl

theorem card_ldrOperands : Nat.card (BitVec 2 × BitVec 1 × BitVec 19 × RegIdx) = 2 ^ 27 := by
  simp only [Nat.card_prod, card_bitVec, ← pow_add, Nat.reduceAdd]

theorem variant_decode_eq_loadLiteral_iff (w : Word) :
    variant (decode w) = .loadLiteral ↔ ∃ a, ldrWord a = w := by
  constructor
  · intro h
    cases hd : decode w with
    | ldr opc v imm19 rt => exact ⟨(opc, v, imm19, rt), (decode_eq_iff rfl w).1 hd⟩
    | mov | add | unknown => rw [hd] at h; cases h
  · rintro ⟨⟨opc, v, imm19, rt⟩, rfl⟩
    rw [ldrWord, decode_encode_ldr, variant]

/-- The register fields of a `mov`, of which one at least is 31 (R65). -/
abbrev MovRegs : Type := {p : RegIdx × RegIdx // p.1 = 31#5 ∨ p.2 = 31#5}

/-- A register field of 31 in either place, or in both: 32 + 32 - 1 pairs. -/
theorem card_movRegs : Nat.card MovRegs = 63 := by
  have hfin (x : RegIdx) : x = 31#5 ↔ BitVec.equivFin x = 31 :=
    (EmbeddingLike.apply_eq_iff_eq BitVec.equivFin (x := x) (y := 31#5)).symm
  calc Nat.card MovRegs
      = Nat.card {p : Fin 32 × Fin 32 // p.1 = 31 ∨ p.2 = 31} :=
        Nat.card_congr <|
          (Equiv.prodCongr BitVec.equivFin.toEquiv BitVec.equivFin.toEquiv).subtypeEquiv
            fun p => or_congr (hfin p.1) (hfin p.2)
    _ = (Finset.univ.filter fun p : Fin 32 × Fin 32 => p.1 = 31 ∨ p.2 = 31).card :=
        Nat.subtype_card _ fun _ => Finset.mem_filter_univ _
    _ = 63 := by decide

/-- The word of a `mov` from all its operands. -/
def movWord : BitVec 1 × BitVec 1 × MovRegs → Word
  | (sf, sBit, regs) => encode (.mov sf sBit regs.1.1 regs.1.2)

theorem wf_mov_iff (sf sBit : BitVec 1) (rn rd : RegIdx) :
    (Instr.mov sf sBit rn rd).wf = true ↔ rn = 31#5 ∨ rd = 31#5 := by
  simp [Instr.wf]

theorem decode_movWord (sf sBit : BitVec 1) (regs : MovRegs) :
    decode (movWord (sf, sBit, regs)) = .mov sf sBit regs.1.1 regs.1.2 :=
  decodeOfEncode _ ((wf_mov_iff _ _ _ _).2 regs.2)

theorem movWord_injective : movWord.Injective := by
  rintro ⟨sf, sBit, regs⟩ ⟨sf', sBit', regs'⟩ h
  have hdecode := congrArg decode h
  simp only [decode_movWord, Instr.mov.injEq] at hdecode
  obtain ⟨rfl, rfl, hrn, hrd⟩ := hdecode
  rw [Subtype.ext (Prod.ext hrn hrd)]

theorem card_movOperands : Nat.card (BitVec 1 × BitVec 1 × MovRegs) = 252 := by
  simp only [Nat.card_prod, card_bitVec, card_movRegs, Nat.reducePow, Nat.reduceMul]

theorem mnemonic_decode_eq_mov_iff (w : Word) :
    Machine.mnemonic (decode w) = "mov" ↔ ∃ a, movWord a = w := by
  constructor
  · intro h
    have hwf := wf_decode w
    cases hd : decode w with
    | mov sf sBit rn rd =>
      rw [hd] at hwf
      exact ⟨(sf, sBit, ⟨(rn, rd), (wf_mov_iff _ _ _ _).1 hwf⟩), (decode_eq_iff hwf w).1 hd⟩
    | ldr | add | unknown => simp [hd, Machine.mnemonic] at h
  · rintro ⟨⟨sf, sBit, regs⟩, rfl⟩
    rw [decode_movWord, Machine.mnemonic]

/-- The three variants share out any range without overlap (R68). Stated for every length, so that no
tactic is tempted to evaluate the range of all words. -/
theorem card_unknown_eq_sub (n a l : Nat) (g : Nat → Variant)
    (ha : ((Finset.range n).filter fun k => g k = .addImmediate).card = a)
    (hl : ((Finset.range n).filter fun k => g k = .loadLiteral).card = l) :
    ((Finset.range n).filter fun k => g k = .unknown).card = n - a - l := by
  have hsum : (Finset.range n).card = ∑ v ∈ {Variant.unknown, .loadLiteral, .addImmediate},
      ((Finset.range n).filter fun k => g k = v).card :=
    Finset.card_eq_sum_card_fiberwise fun k _ => by cases g k <;> simp
  rw [Finset.card_range, Finset.sum_insert (by decide), Finset.sum_insert (by decide),
    Finset.sum_singleton, ha, hl] at hsum
  omega

/-- Settles O5: a count is the number of operands, and `unknown` takes the words that are left. -/
theorem wordsPerVariant : Obligations.WordsPerVariant := by
  have hai := (card_words_eq aiWord aiOperands_aiWord.injective
    (fun w => variant (decode w) = .addImmediate) variant_decode_eq_addImmediate_iff).trans
    card_aiOperands
  have hll := (card_words_eq ldrWord ldrWord_injective
    (fun w => variant (decode w) = .loadLiteral) variant_decode_eq_loadLiteral_iff).trans
    card_ldrOperands
  have hmov := (card_words_eq movWord movWord_injective
    (fun w => Machine.mnemonic (decode w) = "mov") mnemonic_decode_eq_mov_iff).trans
    card_movOperands
  exact ⟨hai, hll, card_unknown_eq_sub _ _ _ _ hai hll, hmov⟩

end Sys2Proof

namespace Sys2Proof.Machine

/-! ### Runs end, and `unknown` in every state (40_execution_engine.md R104, R109) -/

/-- A run that has not ended is in `Idle`: the status has no other value (10_state.md R32). -/
theorem State.ended_eq_false_iff (s : State) : s.ended = false ↔ s.status = .idle := by
  cases hs : s.status <;> simp [State.ended, hs]

/-- The induction over a run: it exists, keeps the invariant and leaves the image as it was. -/
theorem State.Inv.run_next {s : State} (h : s.Inv) (n : Nat) :
    ∃ t, Host.Core.run Sys2Proof.core n s = .next t ∧ t.Inv ∧ t.mem = s.mem := by
  induction n generalizing s with
  | zero => exact ⟨s, rfl, h, rfl⟩
  | succ n ih =>
    obtain ⟨u, hstep⟩ := step_total s
    obtain ⟨t, hrun, ht, hmem⟩ := ih (stepKeepsTheInvariant s u h hstep)
    exact ⟨t, (run_succ n hstep).trans hrun, ht, hmem.trans (step_mem hstep)⟩

/-- Settles O40: a run still in `Idle` has moved `pc` by 4 for each of its `n` steps (R107), and `pc`
cannot pass the end of the image's `L` words (10_state.md R27). -/
theorem everyRunEndsInAFatalCondition : Obligations.EveryRunEndsInAFatalCondition := by
  intro s n h hn
  obtain ⟨t, hrun, ht, hmem⟩ := h.run_next n
  refine ⟨t, hrun, (Bool.not_eq_false _).mp fun hidle => ?_⟩
  have hpc : t.pc.toNat = s.pc.toNat + 4 * n :=
    runsAreStraightLines s t n h hrun ((State.ended_eq_false_iff t).1 hidle)
  have hlow := h.pcLow
  have hhigh := ht.pcHigh
  rw [imageLength_congr hmem] at hhigh
  omega

/-- Settles O9: `exec` of `unknown` commits the cleared working copy; the image is not looked at, so the
program counter is known only where `pc + 4` fits. -/
theorem unknownOnlyAdvances : Obligations.UnknownOnlyAdvances := by
  intro w s
  obtain ⟨hpc, -, hstatus, hicache, hmem, hregs⟩ := commits_beginStep s
  refine ⟨advancePc (beginStep s), rfl, fun j => hregs j nofun, rfl, rfl, fun k => ?_,
    fun hfits => ?_, hstatus, hicache, fun a => by rw [hmem]⟩
  · simp
  · rw [hpc, nextPc_of_lt s.pc hfits]

end Sys2Proof.Machine

namespace Sys2Proof.Machine

/-! ### `ldr`, and the bits that decode ignores (41_load_literal.md R120, R121, R133) -/

/-- A word is read where all four of its bytes are, and is made of them (20_memory.md R44). -/
theorem readWord_eq_some_iff (m : Memory) (a : Nat) (w : Word) :
    m.readWord a = some w ↔
      ∃ b0 b1 b2 b3, m.readByte a = some b0 ∧ m.readByte (a + 1) = some b1 ∧
        m.readByte (a + 2) = some b2 ∧ m.readByte (a + 3) = some b3 ∧
        wordOfBytes b0 b1 b2 b3 = w := by
  constructor
  · intro h
    unfold Memory.readWord at h
    split at h
    next b0 b1 b2 b3 h0 h1 h2 h3 => exact ⟨b0, b1, b2, b3, h0, h1, h2, h3, Option.some.inj h⟩
    next => cases h
  · rintro ⟨b0, b1, b2, b3, h0, h1, h2, h3, rfl⟩
    exact readWord_of_readByte m a b0 b1 b2 b3 h0 h1 h2 h3

/-- An aligned program counter gives an aligned target: the offset counts words (R62, R46). -/
theorem literalTarget_emod_four (pc : Addr) (imm19 : BitVec 19) (h : pc.toNat % 4 = 0) :
    literalTarget pc imm19 % 4 = 0 := by
  simp only [literalTarget, literalOffset]
  omega

theorem exec_ldr_of_memRead_ok (opc : BitVec 2) (v : BitVec 1) {imm19 : BitVec 19} (rt : RegIdx)
    {s : State} {w : Word} (h : memRead s (literalTarget s.pc imm19) = .ok w) :
    exec (.ldr opc v imm19 rt) s =
      .next (advancePc (notifyWrite (writeReg (beginStep s) rt w) rt)) := by
  obtain ⟨_, hw, hexec⟩ | ⟨he, -⟩ := execLdr_cases opc v imm19 rt s
  · cases h.symm.trans hw
    exact hexec
  · cases h.symm.trans he

theorem exec_ldr_of_memRead_error (opc : BitVec 2) (v : BitVec 1) {imm19 : BitVec 19} (rt : RegIdx)
    {s : State} {r : Raise} (h : memRead s (literalTarget s.pc imm19) = .error r) :
    exec (.ldr opc v imm19 rt) s =
      .next (takeFatal s (some (encode (.ldr opc v imm19 rt))) r) := by
  obtain ⟨_, hw, -⟩ | ⟨he, hexec⟩ := execLdr_cases opc v imm19 rt s
  · cases h.symm.trans hw
  · cases h.symm.trans he
    exact hexec

/-- Settles O10: the target is a valid address, so the read gives the word of its four bytes, and the
step commits it to `x[rt]`. -/
theorem ldrLoadsTheWordAtItsTarget : Obligations.LdrLoadsTheWordAtItsTarget := by
  intro opc v imm19 rt s hm hpc4 hlo hhi
  have hvalid : validAddr s (literalTarget s.pc imm19) = true :=
    (validAddr_iff s _).2 ⟨literalTarget_emod_four s.pc imm19 hpc4, hlo, hhi⟩
  obtain ⟨w, hword, hread⟩ := memRead_image s hm _ hvalid
  obtain ⟨b0, b1, b2, b3, h0, h1, h2, h3, rfl⟩ := (readWord_eq_some_iff _ _ _).1 hword
  obtain ⟨hpc, -, hstatus, hicache, hmem, hregs⟩ :=
    commits_writeReg s rt (wordOfBytes b0 b1 b2 b3)
  refine ⟨_, b0, b1, b2, b3, exec_ldr_of_memRead_ok opc v rt hread, h0, h1, h2, h3, ?_,
    fun j hj => hregs j fun hn => hj (Option.some.inj hn).symm, rfl, rfl, fun k => ?_,
    fun hfits => ?_, hstatus, hicache, fun a => by rw [hmem]⟩
  · simp [readReg_writeReg, toNat_wordOfBytes]
  · simp
  · rw [hpc, nextPc_of_lt s.pc hfits]

/-- The word passed to the same fatal condition shows in the record and nowhere else (R158). -/
theorem takeFatal_eq_with_word (s : State) (w w' : Option Word) (r : Raise) {record : FaultRecord}
    (h : (takeFatal s w r).status = .faulted record) :
    takeFatal s w' r =
      { takeFatal s w r with status := .faulted { record with word := w' } } := by
  rw [takeFatal_status] at h
  cases h
  rfl

/-- Settles O13: no body reads the ignored bits. `mov` has one outcome, `ldr` goes by its read, and
`add` takes its fatal condition over either word. -/
theorem ignoredBitsChangeNoEffect : Obligations.IgnoredBitsChangeNoEffect := by
  refine ⟨fun _ _ _ _ _ _ _ => rfl, ?_, ?_⟩
  · intro opc opc' v v' imm19 rt s t t' ht ht' hs
    cases hread : memRead s (literalTarget s.pc imm19) with
    | ok w =>
      cases (exec_ldr_of_memRead_ok opc v rt hread).symm.trans ht
      cases (exec_ldr_of_memRead_ok opc' v' rt hread).symm.trans ht'
      exact ⟨fun _ => rfl, fun r hr => (by cases hs.symm.trans hr)⟩
    | error e =>
      cases (exec_ldr_of_memRead_error opc v rt hread).symm.trans ht
      cases (exec_ldr_of_memRead_error opc' v' rt hread).symm.trans ht'
      exact ⟨nofun, fun r hr => ⟨_, takeFatal_eq_with_word s _ _ e hr⟩⟩
  · intro sf sf' sBit sBit' shift imm12 rn rd s t t' ht ht' r hr
    cases ht
    cases ht'
    exact ⟨_, takeFatal_eq_with_word s _ _ addRaise hr⟩

end Sys2Proof.Machine

namespace Sys2Proof.Machine

/-! ### `mov` (42_add_immediate.md R130, R132) -/

theorem toNat_add32 (a b : Word) : (add32 a b).toNat = (a.toNat + b.toNat) % 2 ^ 32 :=
  BitVec.toNat_add a b

/-- `mov` accumulates the operands from before the step, for `rd = rn` too. -/
theorem readReg_movBody (s : State) (rn rd j : RegIdx) :
    readReg (movBody rn rd s) j =
      if j = rd then add32 (readReg s rd) (readReg s rn) else readReg s j := by
  rw [movBody, readReg_notifyRead, readReg_notifyWrite, readReg_writeReg]

/-- Settles O8: `exec` of `mov` commits its body over the cleared working copy, whose registers are
those of `s`; the body's write puts the sum into `x[rd]`, and the commit keeps the rest. -/
theorem movAccumulatesAndNotifies : Obligations.MovAccumulatesAndNotifies := by
  intro sf sBit rn rd s
  obtain ⟨hpc, hscratch, hstatus, hicache, hmem, hregs⟩ := commits_movBody s rn rd
  refine ⟨advancePc (movBody rn rd (beginStep s)), rfl, ?_,
    fun j hj => hregs j fun hn => hj (Option.some.inj hn).symm, rfl, rfl, fun k => ?_,
    fun hfits => ?_, hstatus, hicache, fun a => by rw [hmem]⟩
  · rw [readReg_advancePc, readReg_movBody, if_pos rfl, toNat_add32, readReg_beginStep,
      readReg_beginStep]
  · simp only [hscratch, Fin.getElem_fin, Vector.getElem_replicate]
  · rw [hpc, nextPc_of_lt s.pc hfits]

end Sys2Proof.Machine

namespace Sys2Proof.Machine

/-! ### Where the fetch fails (60_exceptions.md R153) -/

/-- The fetch fails at exactly the program counters that R153 lists, for a cache of `L` instructions,
and then with `OutOfBoundsFetch`. -/
theorem fetch_error_iff (s : State) (e : Raise) :
    fetch s = .error e ↔
      (s.pc.toNat % 4 ≠ 0 ∨ s.pc.toNat < Config.base ∨
        Config.base + 4 * s.icache.length ≤ s.pc.toNat) ∧ e = fetchRaise := by
  obtain ⟨hfails, hreads⟩ := fetchReadsTheInstructionCache s
  refine ⟨fun he => ?_, fun ⟨hbad, he⟩ => he ▸ hfails hbad⟩
  have hbad : s.pc.toNat % 4 ≠ 0 ∨ s.pc.toNat < Config.base ∨
      Config.base + 4 * s.icache.length ≤ s.pc.toNat := by
    by_contra hgood
    obtain ⟨i, -, hi⟩ := hreads (by omega) (by omega) (by omega)
    cases hi.symm.trans he
  exact ⟨hbad, Except.error.inj (he.symm.trans (hfails hbad))⟩

/-- The invariant keeps `pc` aligned and within `BASE` and `BASE + 4*L`, so of the causes of R153 only
the last one is left, and of it only the end of the image. -/
theorem State.Inv.fetch_error_iff_pc_eq {s : State} (h : s.Inv) :
    (∃ r, fetch s = .error r) ↔ s.pc.toNat = Config.base + 4 * imageLength s := by
  have haligned := h.pcAligned
  have hlow := h.pcLow
  have hhigh := h.pcHigh
  simp only [fetch_error_iff, exists_and_left, exists_eq, and_true, h.icache_length]
  omega

/-- Settles O16: the causes are those of `fetch_error_iff` for a cache of the image's length, and the
invariant leaves only `pc` at the end of the image. -/
theorem fetchFailsExactlyPastTheEnd : Obligations.FetchFailsExactlyPastTheEnd := by
  refine ⟨rfl, fun s hlen hbad => ?_, fun s h => h.fetch_error_iff_pc_eq⟩
  rw [← hlen] at hbad
  exact ⟨fetchRaise, (fetch_error_iff s fetchRaise).2 ⟨hbad, rfl⟩, rfl⟩

/-! ### What `load` turns away and what it builds (20_memory.md R55, 60_exceptions.md R152) -/

theorem load_none : load none = .fault .imageLoadFailure := rfl

theorem load_of_not_whole_words {bytes : List Byte} (h : bytes.length % 4 ≠ 0) :
    load (some bytes) = .fault .imageLoadFailure := if_neg h

/-- A whole-word image that the address space holds loads: the reset state over its bytes. -/
theorem load_of_fits {bytes : List Byte} (h4 : bytes.length % 4 = 0)
    (hfits : Config.base + bytes.length ≤ 2 ^ 64) :
    load (some bytes) = .next
      { State.reset with
        mem := Memory.ofBytes Config.base bytes
        icache := build (Memory.ofBytes Config.base bytes) } :=
  (if_pos h4).trans (if_pos hfits)

/-- Settles O30: no file and a length that is no whole number of words are the two failures of `load`;
the empty file is an image of zero words, which fits. -/
theorem loadFailsOnBadFiles : Obligations.LoadFailsOnBadFiles :=
  ⟨load_none, fun _ => load_of_not_whole_words, _, load_of_fits (bytes := []) rfl (by decide)⟩

end Sys2Proof.Machine

namespace Sys2Proof.Machine

/-! ### `step` always ends, and what `reset` leaves (70_reset_and_hazards.md R180, R181, R187) -/

/-- Settles O26: in `Faulted`, at a failed fetch and over every instruction the step ends, a fatal
condition being a next state (log entry 1). -/
theorem everyStepEnds : Obligations.EveryStepEnds := step_total

/-- Every register, register 31 among them, is cleared (10_state.md R37). -/
@[simp] theorem readReg_resetMachine (s : State) (j : RegIdx) : readReg (resetMachine s) j = 0#32 :=
  Vector.getElem_replicate j.isLt

theorem resetMachine_scratch_getElem (s : State) (k : Fin 4) :
    (resetMachine s).scratch[k] = 0#32 :=
  Vector.getElem_replicate k.isLt

/-- No value that `reset` sets depends on the state before it, and it keeps the rest, so a second one
finds nothing to change (R181). -/
@[simp] theorem resetMachine_resetMachine (s : State) :
    resetMachine (resetMachine s) = resetMachine s := rfl

/-- Settles O27: one rule of `reset` per component. -/
theorem resetSetsEveryMutableComponent : Obligations.ResetSetsEveryMutableComponent := fun s =>
  ⟨toNat_resetMachine_pc s, readReg_resetMachine s, resetMachine_scratch_getElem s,
    resetMachine_notifyW s, resetMachine_notifyR s, resetMachine_status s,
    resetMachine_mem s, resetMachine_icache s⟩

/-- Settles O28: the idempotence, and the rules of the components that end at zero or none. -/
theorem resetIsIdempotent : Obligations.ResetIsIdempotent := fun s =>
  ⟨resetMachine_resetMachine s, toNat_resetMachine_pc s, readReg_resetMachine s,
    resetMachine_scratch_getElem s, resetMachine_notifyW s, resetMachine_notifyR s⟩

end Sys2Proof.Machine

namespace Sys2Proof

/-- Settles O6: each word encodes a well-formed instruction, and `decode` undoes `encode`. -/
theorem decodeOfWrittenOutWords : Obligations.DecodeOfWrittenOutWords :=
  ⟨(decode_eq_iff rfl _).2 (by decide), (decode_eq_iff rfl _).2 (by decide),
    (decode_eq_iff rfl _).2 (by decide), (decode_eq_iff rfl _).2 (by decide),
    (decode_eq_iff rfl _).2 (by decide), (decode_eq_iff (by decide) _).2 rfl,
    (decode_eq_iff (by decide) _).2 rfl⟩

end Sys2Proof

namespace Sys2Proof.Machine

/-! ### The two instructions that take a fatal condition (60_exceptions.md R154, R155) -/

theorem exec_add (sf sBit shift : BitVec 1) (imm12 : BitVec 12) (rn rd : RegIdx) (s : State) :
    exec (.add sf sBit shift imm12 rn rd) s =
      .next (takeFatal s (some (encode (.add sf sBit shift imm12 rn rd))) addRaise) := rfl

/-- Settles O12: the record of `addRaise`, taken on the state from before the step. -/
theorem addTakesUnimplementedSemantics : Obligations.AddTakesUnimplementedSemantics :=
  exec_add

/-- Outside the image no address is valid (20_memory.md R41), aligned or not. -/
theorem validAddr_eq_false_of_outside {s : State} {a : Int}
    (h : a < (Config.base : Int) ∨ (Config.base : Int) + 4 * (imageLength s : Int) ≤ a) :
    validAddr s a = false := by
  rw [Bool.eq_false_iff, ne_eq, validAddr_iff]
  omega

/-- Settles O11: the read at the target raises in every memory, and `ldr` takes what it raises. -/
theorem ldrOutsideTheImageFaults : Obligations.LdrOutsideTheImageFaults := by
  intro opc v imm19 rt s hout
  exact exec_ldr_of_memRead_error opc v rt
    (memRead_invalid s _ (validAddr_eq_false_of_outside hout))

/-- Under the invariant the target of a failed `ldr` lies outside the image: it is aligned as
`pc` is. -/
theorem State.Inv.literalTarget_outside {s : State} (h : s.Inv) {imm19 : BitVec 19} {e : Raise}
    (he : memRead s (literalTarget s.pc imm19) = .error e) :
    literalTarget s.pc imm19 < (Config.base : Int) ∨
      (Config.base : Int) + 4 * (imageLength s : Int) ≤ literalTarget s.pc imm19 := by
  by_contra hin
  obtain ⟨w, -, hw⟩ := (memReadReadsImageWords s _ h.image).1
    (literalTarget_emod_four s.pc imm19 h.pcAligned) (by omega) (by omega)
  cases he.symm.trans hw

/-! ### A step that takes a fatal condition (60_exceptions.md R158, R160) -/

/-- The three ways in which a step of an `Idle` machine ends in `Faulted`, in the order of R160: the
fetch, an `add`, an `ldr` whose read fails. -/
theorem step_fatal_cases {s t : State} {r : FaultRecord} (hs : s.status = .idle)
    (hstep : step s = .next t) (ht : t.status = .faulted r) :
    (fetch s = .error fetchRaise ∧ t = takeFatal s none fetchRaise) ∨
    (∃ sf sBit shift imm12 rn rd, fetch s = .ok (.add sf sBit shift imm12 rn rd) ∧
      t = takeFatal s (some (encode (.add sf sBit shift imm12 rn rd))) addRaise) ∨
    (∃ opc v imm19 rt, fetch s = .ok (.ldr opc v imm19 rt) ∧
      memRead s (literalTarget s.pc imm19) = .error (accessRaise (literalTarget s.pc imm19)) ∧
      t = takeFatal s (some (encode (.ldr opc v imm19 rt)))
        (accessRaise (literalTarget s.pc imm19))) := by
  obtain ⟨_, hr, -⟩ | ⟨-, hf, h⟩ | ⟨i, -, hf, h⟩ := step_cases s
  · cases hs.symm.trans hr
  · cases h.symm.trans hstep
    exact .inl ⟨hf, rfl⟩
  · rw [h] at hstep
    obtain ⟨_, _, rn, rd, -, hexec⟩ | ⟨sf, sBit, shift, imm12, rn, rd, rfl, hexec⟩ |
      ⟨_, _, _, rt, w, -, -, hexec⟩ | ⟨opc, v, imm19, rt, rfl, hread, hexec⟩ |
      ⟨_, -, hexec⟩ := exec_cases i s <;> cases hexec.symm.trans hstep
    · cases (((commits_movBody s rn rd).status.trans hs).symm.trans ht)
    · exact .inr (.inl ⟨sf, sBit, shift, imm12, rn, rd, hf, rfl⟩)
    · cases (((commits_writeReg s rt w).status.trans hs).symm.trans ht)
    · exact .inr (.inr ⟨opc, v, imm19, rt, hf, hread, rfl⟩)
    · cases (((commits_beginStep s).status.trans hs).symm.trans ht)

/-- Settles O17: under the invariant the fetch fails at that `pc` and nowhere else, and neither
instruction that faults takes code 2. -/
theorem stepPastTheEndTakesOutOfBoundsFetch : Obligations.StepPastTheEndTakesOutOfBoundsFetch := by
  intro s h hs
  refine ⟨fun hpc => ?_, fun t r hstep ht hcode => ?_⟩
  · obtain ⟨e, he⟩ := h.fetch_error_iff_pc_eq.2 hpc
    obtain ⟨-, rfl⟩ := (fetch_error_iff s e).1 he
    exact step_fetch_error hs he
  · obtain ⟨hf, rfl⟩ | ⟨_, _, _, _, _, _, -, rfl⟩ | ⟨_, _, _, _, -, -, rfl⟩ :=
      step_fatal_cases hs hstep ht <;> cases ht
    · exact h.fetch_error_iff_pc_eq.1 ⟨_, hf⟩
    · cases hcode
    · cases hcode

theorem stepResult_of_faulted {t : State} {r : FaultRecord} (h : t.status = .faulted r) :
    stepResult t = .fatal r := by
  rw [stepResult, h]

/-- Settles O19: each of the three ways shows its own record, on the state from before the step. -/
theorem fatalConditionCommitsOnlyStatus : Obligations.FatalConditionCommitsOnlyStatus := by
  intro s t r hs hstep ht
  have hresult := stepResult_of_faulted ht
  obtain ⟨-, rfl⟩ | ⟨_, _, _, _, _, _, hf, rfl⟩ | ⟨_, _, _, _, hf, -, rfl⟩ :=
    step_fatal_cases hs hstep ht <;> cases ht
  · exact ⟨rfl, rfl, fun _ => rfl, fun hn => absurd rfl hn, ⟨nofun, nofun⟩, ⟨nofun, nofun⟩,
      hresult⟩
  · exact ⟨rfl, rfl, nofun, fun _ => ⟨_, hf, rfl⟩, ⟨nofun, nofun⟩, ⟨nofun, nofun⟩, hresult⟩
  · exact ⟨rfl, rfl, nofun, fun _ => ⟨_, hf, rfl⟩, ⟨fun _ => rfl, fun _ => rfl⟩,
      ⟨nofun, nofun⟩, hresult⟩

/-- Settles O25: the invariant turns the failed fetch into its `pc` and the failed read into its
target outside the image. -/
theorem stepTakesTheFirstFailedCheck : Obligations.StepTakesTheFirstFailedCheck := by
  intro s t r h hs hstep ht
  obtain ⟨hf, rfl⟩ | ⟨sf, sBit, shift, imm12, rn, rd, hf, rfl⟩ |
    ⟨opc, v, imm19, rt, hf, hread, rfl⟩ := step_fatal_cases hs hstep ht <;> cases ht
  · exact .inl ⟨rfl, h.fetch_error_iff_pc_eq.1 ⟨_, hf⟩⟩
  · exact .inr (.inr ⟨rfl, sf, sBit, shift, imm12, rn, rd, hf⟩)
  · exact .inr (.inl ⟨rfl, opc, v, imm19, rt, hf, rfl, h.literalTarget_outside hread⟩)

/-! ### `Faulted` until `reset` (40_execution_engine.md R103, 60_exceptions.md R159) -/

/-- Settles O18: `step` ends where it began, so its result is read from the old `status`. -/
theorem faultedStepChangesNothing : Obligations.FaultedStepChangesNothing := fun s _ hr =>
  ⟨step_faulted hr, stepResult_of_faulted hr, resetMachine_status s⟩

/-- Settles O41: the induction over the steps is that of `run_faulted`. -/
theorem faultedUntilReset : Obligations.FaultedUntilReset := fun s _ n hr =>
  ⟨run_faulted n hr, resetMachine_status s⟩

/-! ### The machine that `load` builds (20_memory.md R40, R44, R55) -/

theorem readByte_ofBytes_add (a : Nat) (bs : List Byte) (k : Nat) :
    (Memory.ofBytes a bs).readByte (a + k) = bs[k]? := by
  rw [readByte_ofBytes, if_neg (Nat.not_lt.2 (Nat.le_add_right a k)), Nat.add_sub_cancel_left]

/-- Four bytes of a file from position `k` on are the word at that distance from the first
address. -/
theorem readWord_ofBytes_add (a : Nat) {bs : List Byte} {k : Nat} {b0 b1 b2 b3 : Byte}
    (h0 : bs[k]? = some b0) (h1 : bs[k + 1]? = some b1) (h2 : bs[k + 2]? = some b2)
    (h3 : bs[k + 3]? = some b3) :
    (Memory.ofBytes a bs).readWord (a + k) = some (wordOfBytes b0 b1 b2 b3) :=
  readWord_of_readByte _ _ b0 b1 b2 b3 ((readByte_ofBytes_add a bs k).trans h0)
    ((readByte_ofBytes_add a bs (k + 1)).trans h1) ((readByte_ofBytes_add a bs (k + 2)).trans h2)
    ((readByte_ofBytes_add a bs (k + 3)).trans h3)

/-- Settles O31: the loaded machine is the reset state over the file's bytes laid out from BASE. -/
theorem loadBuildsTheMachine : Obligations.LoadBuildsTheMachine := by
  intro bytes h4 hfits
  have hinv := inv_of_image bytes h4 hfits
  have hlen := mem_length_of_isImage _ hinv.image
  rw [length_ofBytes] at hlen
  refine ⟨_, load_of_fits h4 hfits.le, hinv, rfl, hlen.symm,
    readByte_ofBytes_add Config.base bytes, ?_⟩
  intro i b0 b1 b2 b3 h0 h1 h2 h3
  exact ⟨_, readWord_ofBytes_add Config.base h0 h1 h2 h3, toNat_wordOfBytes b0 b1 b2 b3⟩

end Sys2Proof.Machine
